-- ==== Sys2Proof/Word.lean ====
section
/-! DEFINITION. The bit-vector types of the CORE: what the spec treats as a word of bits. -/

namespace Sys2Proof

/-- A byte of `IBUF` or `OBUF` (R30: "A byte is 8 bits"). -/
abbrev Byte := BitVec 8

/-- A 32-bit word: a command word (R80), or the content of a register of the window (R27). -/
abbrev Word := BitVec 32

/-- A 16-bit output sample, two's complement (R52). -/
abbrev Pcm := BitVec 16

end Sys2Proof
end

