-- ==== Sys2Proof/Syntax.lean ====
section
/-! DEFINITION. The commands of the CORE, its whole instruction set (R170, R180): one constructor per row of
spec/opcode_table.json. And the assembler lines of R89, whose operands are numbers that may be out of range. -/

namespace Sys2Proof

/-- A decoded command. The operands have the width R85 gives them, so that no operand can be out of range. -/
inductive Instr where
  /-- RESET (R82, R171): no operand. -/
  | reset
  /-- SETVOL (R83, R172): `FACTOR`, unsigned 16 bits. -/
  | setvol (factor : BitVec 16)
  /-- PROCESS (R84, R173): `LEN`, unsigned 24 bits, a count of bytes. -/
  | process (len : BitVec 24)
deriving DecidableEq, Repr

/-- One line of the assembler notation of R89. There is no pseudo-instruction (R90). -/
inductive AsmLine where
  | reset
  | setvol (factor : Nat)
  | process (len : Nat)
deriving DecidableEq, Repr

end Sys2Proof
end

