-- ==== Sys2Proof/WellFormed.lean ====
section
/-! DEFINITION. Which commands and which assembler lines are well formed (R85, R89). -/

namespace Sys2Proof

/-- R85: every value of an operand is a legal operand. The widths of `Instr` leave no ill-formed command: what a command
word could get wrong is refused by the decoder (R91), what an assembler line could get wrong by `AsmLine.wellFormed`. -/
def Instr.wellFormed : Instr → Bool
  | .reset => true
  | .setvol _ => true
  | .process _ => true

/-- R89: `factor` in 0..65535, `len` in 0..16777215. "An operand outside the stated range cannot be assembled." -/
def AsmLine.wellFormed : AsmLine → Bool
  | .reset => true
  | .setvol factor => decide (factor ≤ 65535)
  | .process len => decide (len ≤ 16777215)

end Sys2Proof
end

