-- ==== Sys2Proof/Decode.lean ====
section
/-! DEFINITION. The decoder of command words, total on all 2^32 words (R91), and the encoder beside it (R81 to R84). -/

namespace Sys2Proof

/-- Why a word is illegal (R86). Each of the four is reported by the one code `ILLEGAL_CMD` (R190). -/
inductive Undecodable where
  /-- `OP` = 0 or 4..15. -/
  | reservedOp (op : BitVec 4)
  /-- `OP` = 1 with a bit of `w[27:0]` set. -/
  | resetReservedBits
  /-- `OP` = 2 with a bit of `w[27:16]` set. -/
  | setvolReservedBits
  /-- `OP` = 3 with a bit of `w[27:24]` set. -/
  | processReservedBits
deriving DecidableEq, Repr

/-- `OP` of R81: `w[31:28]`. -/
def opField (w : Word) : BitVec 4 := w.extractLsb' 28 4

/-- The decode algorithm of R91. -/
def decode (w : Word) : Except Undecodable Instr :=
  if opField w = 1#4 then
    if w.extractLsb' 0 28 = 0#28 then .ok .reset else .error .resetReservedBits
  else if opField w = 2#4 then
    if w.extractLsb' 16 12 = 0#12 then .ok (.setvol (w.extractLsb' 0 16)) else .error .setvolReservedBits
  else if opField w = 3#4 then
    if w.extractLsb' 24 4 = 0#4 then .ok (.process (w.extractLsb' 0 24)) else .error .processReservedBits
  else .error (.reservedOp (opField w))

/-- The command word of a command, field by field (R81 to R84). -/
def encode : Instr → Word
  | .reset => 1#4 ++ 0#28
  | .setvol factor => 2#4 ++ 0#12 ++ factor
  | .process len => 3#4 ++ 0#4 ++ len

/-- R89: the command an assembler line stands for, none where its operand is out of range. -/
def assemble (line : AsmLine) : Option Instr :=
  if line.wellFormed then
    match line with
    | .reset => some .reset
    | .setvol factor => some (.setvol (BitVec.ofNat 16 factor))
    | .process len => some (.process (BitVec.ofNat 24 len))
  else none

/-- The command that the decoder reads from a table row's word. A command is one 32-bit word taken whole: it has no
byte order (R53, R80), so the word `w` itself goes to the decoder (log entry 14). -/
def decodeTableWord (nbits w : Nat) : Option Instr :=
  if nbits ≤ 32 ∧ w < 2 ^ 32 then
    match decode (BitVec.ofNat 32 w) with
    | .ok i => some i
    | .error _ => none
  else none

end Sys2Proof
end

