-- ==== Sys2Proof/Machine/Float.lean ====
section
/-! DEFINITION. The floating-point primitives and constants of 00_scope.md (R10 to R15). A datapath value is carried as
the rational number it stands for (R13: "a model may carry every datapath value as a rational number that lies in
F32, with `rn32` as the only source of inexactness"); log entry 7. -/

namespace Sys2Proof.Machine

/-! ### R10: the format -/

/-- R10: a word with biased exponent 255 encodes infinity or NaN, every other word a finite value. -/
def f32Finite (w : Word) : Bool := w.extractLsb' 23 8 != 255#8

/-- R10: the value of a finite binary32 word. (A word with exponent 255 has no value in the spec; none is ever formed,
R13, and `f32Finite` says which words these are.) -/
def f32 (w : Word) : Rat :=
  let e := (w.extractLsb' 23 8).toNat
  let f : Rat := ((w.extractLsb' 0 23).toNat : Rat)
  let magnitude : Rat :=
    if e = 0 then (2 : Rat) ^ (-126 : Int) * (f / 2 ^ 23)
    else (2 : Rat) ^ ((e : Int) - 127) * (1 + f / 2 ^ 23)
  if w.getLsbD 31 then -magnitude else magnitude

/-- R10: the set F32 of finite values. -/
def InF32 (q : Rat) : Prop := ∃ w : Word, f32Finite w = true ∧ f32 w = q

/-! ### R11: rounding -/

/-- `floor(log2 q)` for `q > 0`. -/
def floorLog2 (q : Rat) : Int :=
  let e : Int := (Nat.log2 q.num.natAbs : Int) - (Nat.log2 q.den : Int)
  if (2 : Rat) ^ e ≤ q then e else e - 1

/-- `E` of R11, the exponent that the value is rounded at. -/
def roundExponent (q : Rat) : Int := max (floorLog2 |q|) (-126)

/-- `ulp` of R11. -/
def ulpOf (q : Rat) : Rat := (2 : Rat) ^ (roundExponent q - 23)

/-- `m` of R11 as a function of `n`: the integer nearest to `n`, of two equally near ones the even one. -/
def roundHalfEven (n : Rat) : Int :=
  let m := ⌊n⌋
  let d := n - m
  if d < 1 / 2 then m
  else if 1 / 2 < d then m + 1
  else if m % 2 = 0 then m else m + 1

/-- R11: round to nearest, ties to even. (A magnitude of 2^128 or more would be infinity; R13: it never occurs.) -/
def rn32 (q : Rat) : Rat :=
  if q = 0 then 0
  else
    let magnitude := (roundHalfEven (|q| / ulpOf q) : Rat) * ulpOf q
    if q < 0 then -magnitude else magnitude

/-! ### R12: the operations -/

def fadd (a b : Rat) : Rat := rn32 (a + b)
def fsub (a b : Rat) : Rat := rn32 (a - b)
def fmul (a b : Rat) : Rat := rn32 (a * b)
/-- R12 gives `fdiv` for a divisor other than 0; R132 guards the one division whose divisor can be 0. -/
def fdiv (a b : Rat) : Rat := rn32 (a / b)
/-- One rounding: the product is not rounded before the addition. -/
def fma (a b c : Rat) : Rat := rn32 (a * b + c)
def fneg (a : Rat) : Rat := -a
def fabs (a : Rat) : Rat := |a|
def fmax (a b : Rat) : Rat := if a < b then b else a
def fmin (a b : Rat) : Rat := if a < b then a else b

/-! ### R14: conversions -/

def i2f (n : Int) : Rat := rn32 (n : Rat)

/-- R14: the fractional part is discarded (round toward zero). -/
def f2iTrunc (v : Rat) : Int := if 0 ≤ v then ⌊v⌋ else ⌈v⌉

/-! ### R15: the constants -/

def pi32 : Rat := f32 0x40490FDB#32
def halfPi32 : Rat := f32 0x3FC90FDB#32
def polyC0 : Rat := f32 0xBEA7BE2C#32
def polyC1 : Rat := f32 0x3E232344#32
def polyC2 : Rat := f32 0xBD3E7316#32

end Sys2Proof.Machine
end

