-- ==== Sys2Proof/Config.lean ====
section
/-! DEFINITION. What an implementation of the CORE fixes (R4, D13), and the one value the spec leaves free (U4). -/

namespace Sys2Proof.Config

/-- The two buffer memories (R30, R50). -/
inductive Space where
  | ibuf
  | obuf
deriving DecidableEq, Repr

/-- `BLOCK_BYTES` of R4: 64 raw I/Q pairs. -/
def blockBytes : Nat := 128

/-- `DEFAULT_FACTOR` of R4: the value of `VOLF` after hardware reset (R32). -/
def defaultFactor : BitVec 16 := 4096#16

/-- The size of `IBUF`, OPEN in R4 and D13: any multiple of 128 from 128 to 16 777 088.
The value `n` stands for `128 * (n + 1)` bytes, so that exactly the sizes the spec allows exist. -/
abbrev BufferSize := Fin 131071

/-- DESIGN CHOICE (log entry 4; D13: "A model that wants a number may take 16 384 (128 blocks) without loss"):
the size that `State.reset` carries. No meaning reads this constant: every one reads the size out of the state. -/
def defaultBufferSize : BufferSize := 127

/-- DESIGN CHOICE (log entry 5; U4 "`any value` (a free input fixed at reset)"): the free value of a byte that nothing
has written since the hardware reset number `epoch`. It has no body: no proof can know a value of it. -/
opaque unwrittenByte (space : Space) (epoch : Nat) (addr : Nat) : Byte

end Sys2Proof.Config
end

