-- ==== Sys2Proof/Machine/State.lean ====
section
/-! DEFINITION. The state of the CORE and of the host that drives it, as plain data (R20 to R33), with why a step may
stop. -/

namespace Sys2Proof.Machine

open Sys2Proof.Config (Space BufferSize)

/-- `STATUS.ERRCODE` (R23, R190): the outcome of the most recent command. The values 4..7 "are never produced", so they
are no constructor. -/
inductive ErrCode where
  | ok
  | illegalCmd
  | badLength
  | bufferRange
deriving DecidableEq, Repr

/-- A buffer memory: the bytes written since the last hardware reset, addresses strictly rising. An address that is not
listed holds no written byte; what it reads as is `Config.unwrittenByte` (R61, U4; log entry 5). -/
abbrev Memory := List Host.Cell

/-- A transaction of the host (R7), on the registers by the byte offset in the register window (R27). -/
inductive HostTx where
  /-- `HRESET`: the reset input is asserted (R210). -/
  | hreset
  /-- A write of an aligned 32-bit word to the register window. At offset 0x00 it is `WRCMD w` (R28). -/
  | wrreg (offset : Nat) (w : Word)
  /-- `RDREG`: a read of an aligned 32-bit word of the register window (R27). -/
  | rdreg (offset : Nat)
  /-- `WRIBUF addr, b0 b1 ...`: bytes written to `IBUF` from `addr` upward. -/
  | wribuf (addr : Nat) (bytes : List Byte)
  /-- A byte read of `IBUF` (R59: the host may read and write any byte of it). -/
  | rdibuf (addr : Nat)
  /-- A byte read of `OBUF` (R53, R59). -/
  | rdobufByte (addr : Nat)
  /-- A 16-bit read of `OBUF` at a byte address (R53, R58). `RDOBUF16 k` is this read at address `2k`. -/
  | rdobufHalf (addr : Nat)
deriving DecidableEq, Repr

/-- Who moves next (R8: "Two agents exist: the host and the CORE"). -/
inductive Event where
  /-- The host makes a transaction. -/
  | host (t : HostTx)
  /-- The CORE moves: it finishes the command it is running, or it idles. -/
  | core
deriving DecidableEq, Repr

/-- What a read transaction gave back to the host. -/
inductive ReadData where
  | word (v : Word)
  | half (v : Pcm)
  | byte (v : Byte)
deriving DecidableEq, Repr

/-- The state. The first eight fields are the architectural state of R20 (with `STATUS` as `errcode`, `fault` and
`running`); `ibufSize` is the open parameter of R4; the last four are the model's own. -/
structure State where
  /-- `CARRY_I` (R21), two's complement. -/
  carryI : Word
  /-- `CARRY_Q` (R21), two's complement. -/
  carryQ : Word
  /-- `VOLF` (R22), unsigned. -/
  volf : BitVec 16
  /-- `STATUS.ERRCODE` (R23). -/
  errcode : ErrCode
  /-- `STATUS.FAULT` (R23): sticky. -/
  fault : Bool
  /-- `OCOUNT` (R24). -/
  ocount : Word
  /-- The command word in flight (R31: "The only thing in flight is a running command"). `STATUS.BUSY` is 1 exactly while
  there is one (R23), so it is stored here and nowhere else: see `State.busy`. -/
  running : Option Word
  /-- `IBUF` (R50). -/
  ibuf : Memory
  /-- `OBUF` (R50). -/
  obuf : Memory
  /-- `IBUF_BYTES` (R4, R50), fixed for one CORE: no step changes it. -/
  ibufSize : BufferSize
  /-- The model's own: how many hardware resets there have been; it selects the free values of unwritten bytes. -/
  epoch : Nat
  /-- The model's own: the moves still to come, in the order they take effect (R60 (a)). -/
  schedule : List Event
  /-- The model's own: what the host's reads gave back, the latest first. -/
  reads : List ReadData
deriving DecidableEq, Repr

/-- Why the machine stops with a fault. No command raises one: a rejected command is a next state (R193). -/
inductive Fault where
  /-- Raised by a host access to an address outside `0..size-1` of a buffer memory (R58, U6). Safe: the spec gives the
  access no result, and the model has none. -/
  | noSuchAddress (space : Space) (addr : Nat)
deriving DecidableEq, Repr

/-- Why a step is refused. -/
inductive Refusal where
  /-- Raised by no arm of `exec`: every command has its meaning. Safe. -/
  | notModelled (mnemonic : String)
  /-- Raised by a host transaction that R59 does not allow while `STATUS.BUSY = 1` (U1: "the model offers the host no such
  move"). Safe: the spec calls the result undefined. -/
  | protocolViolation (t : HostTx)
  /-- Raised by an access to the register window at a reserved offset or one that is not word-aligned (R29, U6). Safe: the
  spec gives it no result. -/
  | reservedOffset (offset : Nat)
  /-- Raised by a 16-bit read of `OBUF` at an odd address (R58, U6). Safe: the spec gives it no result. -/
  | misalignedRead (addr : Nat)
deriving DecidableEq, Repr

/-- The machine right after hardware reset (R32, R210), the host having issued nothing yet. -/
def State.reset : State where
  carryI := 0#32
  carryQ := 0#32
  volf := Config.defaultFactor
  errcode := .ok
  fault := false
  ocount := 0#32
  running := none
  ibuf := []
  obuf := []
  ibufSize := Config.defaultBufferSize
  epoch := 0
  schedule := []
  reads := []

end Sys2Proof.Machine
end

