-- ==== Sys2Proof/Machine/Flags.lean ====
section
/-! DEFINITION. `STATUS` (R23): its fields and the word the host reads. No operation of the datapath sets a flag. -/

namespace Sys2Proof.Machine

/-- The three bits of `ERRCODE` (R190). -/
def ErrCode.code : ErrCode → BitVec 3
  | .ok => 0#3
  | .illegalCmd => 1#3
  | .badLength => 2#3
  | .bufferRange => 3#3

/-- `STATUS.BUSY` (R23): 1 from the acceptance of a `WRCMD` until the command has finished. -/
def State.busy (s : State) : Bool := s.running.isSome

/-- The word read at offset 0x04 (R23): bits 31:5 read as 0, bit 4 `FAULT`, bits 3:1 `ERRCODE`, bit 0 `BUSY`. -/
def State.statusWord (s : State) : Word :=
  0#27 ++ BitVec.ofBool s.fault ++ s.errcode.code ++ BitVec.ofBool s.busy

end Sys2Proof.Machine
end

