-- ==== Sys2Proof/Machine/Operands.lean ====
section
/-! DEFINITION. The operands: those of a command word (R85), the byte addresses PROCESS forms (R54, R55), the sizes of
the two memories (R50), and the registers the host names by offset (R27). -/

namespace Sys2Proof.Machine

/-! ### Operands of a command word (R85) -/

/-- `LEN`: a count of bytes, used as it stands. -/
def lenBytes (len : BitVec 24) : Nat := len.toNat

/-- `N = LEN / 128` of R173: the number of blocks, and of output samples. -/
def lenBlocks (len : BitVec 24) : Nat := lenBytes len / Config.blockBytes

/-! ### Sizes (R50) -/

/-- `IBUF_BYTES`. -/
def State.ibufBytes (s : State) : Nat := Config.blockBytes * (s.ibufSize.val + 1)

/-- `OBUF_BYTES = IBUF_BYTES / 64`. -/
def State.obufBytes (s : State) : Nat := s.ibufBytes / 64

/-! ### Addresses (R54, R55) -/

/-- `base` of R174: the first byte of group `t` of block `k`. -/
def groupBase (k t : Nat) : Nat := 128 * k + 16 * t

/-- R101: within a group even offsets are I. -/
def inPhaseAddr (base j : Nat) : Nat := base + 2 * j

/-- R101: within a group odd offsets are Q. -/
def quadratureAddr (base j : Nat) : Nat := base + 2 * j + 1

/-- R55: where the output sample of block `k` is stored. -/
def sampleAddr (k : Nat) : Nat := 2 * k

/-! ### The register window (R27) -/

/-- The registers of the window. -/
inductive Reg where
  | cmd
  | status
  | volf
  | carryI
  | carryQ
  | ocount
deriving DecidableEq, Repr

/-- The register at a byte offset; none at a reserved or misaligned one (R29). -/
def regAt : Nat → Option Reg
  | 0x00 => some .cmd
  | 0x04 => some .status
  | 0x08 => some .volf
  | 0x0C => some .carryI
  | 0x10 => some .carryQ
  | 0x14 => some .ocount
  | _ => none

/-- "content on read" of R27. A read changes nothing. -/
def State.regRead (s : State) : Reg → Word
  | .cmd => 0#32
  | .status => s.statusWord
  | .volf => s.volf.setWidth 32
  | .carryI => s.carryI
  | .carryQ => s.carryQ
  | .ocount => s.ocount

end Sys2Proof.Machine
end

