-- ==== Sys2Proof/Machine/Ops.lean ====
section
/-! DEFINITION. The named operations over memory and registers: memory in its canonical form (R6, R53, R61), the end of
a command (R170), the rejection of one (R193: the CORE's only exception) and hardware reset (R210). -/

namespace Sys2Proof.Machine

open Sys2Proof.Config (Space)

/-! ### Loops -/

/-- The state a loop `for i in 0..n-1` leaves (R6: ascending, and an empty range runs zero times). -/
def forTo {σ : Type} : Nat → (Nat → σ → σ) → σ → σ
  | 0, _, x => x
  | n + 1, body, x => body n (forTo n body x)

/-! ### Memory -/

/-- The canonical form: addresses strictly rising. No entry can equal what an unlisted address holds, which is no written
byte at all. -/
def Memory.wf : Memory → Bool
  | [] => true
  | [_] => true
  | c :: d :: m => decide (c.1 < d.1) && Memory.wf (d :: m)

/-- The byte written at `addr`, none where nothing has been written. -/
def Memory.get? : Memory → Nat → Option Byte
  | [], _ => none
  | c :: m, addr => if c.1 = addr then some c.2 else Memory.get? m addr

/-- Write one byte, keeping the canonical form. -/
def Memory.set : Memory → Nat → Byte → Memory
  | [], addr, b => [(addr, b)]
  | c :: m, addr, b =>
    if addr < c.1 then (addr, b) :: c :: m
    else if addr = c.1 then (addr, b) :: m
    else c :: Memory.set m addr b

/-- `MemWrite(space, addr, n, v)` of R6: the low `8n` bits of `v`, the byte at `addr` being bits 7:0. -/
def Memory.write (m : Memory) (addr : Nat) : Nat → Nat → Memory
  | 0, _ => m
  | n + 1, v => Memory.write (m.set addr (BitVec.ofNat 8 v)) (addr + 1) n (v / 256)

/-- Bytes written one after another from `addr` upward (`WRIBUF` of R7). -/
def Memory.writeBytes (m : Memory) (addr : Nat) : List Byte → Memory
  | [] => m
  | b :: bs => Memory.writeBytes (m.set addr b) (addr + 1) bs

/-- `MemRead(space, addr, n)` of R6 over a space's bytes: assembled little-endian. -/
def memRead (byteAt : Nat → Byte) (addr : Nat) : Nat → Nat
  | 0 => 0
  | n + 1 => (byteAt addr).toNat + 256 * memRead byteAt (addr + 1) n

/-- What an address of a buffer memory reads as: the byte written there, else the free value of the byte (R61, U4). -/
def State.byteAt (s : State) (space : Space) (addr : Nat) : Byte :=
  match space with
  | .ibuf => (s.ibuf.get? addr).getD (Config.unwrittenByte .ibuf s.epoch addr)
  | .obuf => (s.obuf.get? addr).getD (Config.unwrittenByte .obuf s.epoch addr)

/-- The 16-bit output sample number `k` in `OBUF` (R52, R53). -/
def State.sample (s : State) (k : Nat) : Pcm := BitVec.ofNat 16 (memRead (s.byteAt .obuf) (sampleAddr k) 2)

/-! ### Registers and the life of a command (R170) -/

/-- R170 (1), R28: a `WRCMD` is accepted; `STATUS.BUSY <- 1`. -/
def State.accept (s : State) (w : Word) : State := { s with running := some w }

/-- R170 (4) and (5): a command that was not rejected ends; `ERRCODE <- 0`, `BUSY <- 0`. -/
def State.complete (s : State) : State := { s with errcode := .ok, running := none }

/-- R193, the one exception: `ERRCODE <- code`, `FAULT <- 1`, `BUSY <- 0`, and nothing else. Nothing is saved and there is
no return from it (R194): the next command runs normally. -/
def State.reject (s : State) (code : ErrCode) : State := { s with errcode := code, fault := true, running := none }

/-- The carryover pair written (R21). -/
def State.setCarry (s : State) (i q : Word) : State := { s with carryI := i, carryQ := q }

/-- `VOLF` written (R22). -/
def State.setVolf (s : State) (factor : BitVec 16) : State := { s with volf := factor }

/-- `OCOUNT` written (R24). -/
def State.setOcount (s : State) (n : Word) : State := { s with ocount := n }

/-- `OBUF` written. -/
def State.setObuf (s : State) (m : Memory) : State := { s with obuf := m }

/-- `IBUF` written. -/
def State.setIbuf (s : State) (m : Memory) : State := { s with ibuf := m }

/-- A read gives its data back to the host. -/
def State.observe (s : State) (d : ReadData) : State := { s with reads := d :: s.reads }

/-- The schedule after the move at its head. -/
def State.setSchedule (s : State) (l : List Event) : State := { s with schedule := l }

/-- `HRESET` (R210, R32): the registers at their reset values, the running command abandoned, every byte of the two
memories unspecified again. -/
def State.hardwareReset (s : State) : State :=
  { s with
    carryI := 0#32
    carryQ := 0#32
    volf := Config.defaultFactor
    errcode := .ok
    fault := false
    ocount := 0#32
    running := none
    ibuf := []
    obuf := []
    epoch := s.epoch + 1 }

end Sys2Proof.Machine
end

