-- ==== Sys2Proof/Machine/Datapath.lean ====
section
/-! DEFINITION. The six units of the datapath in data-flow order (R1), pure functions that PROCESS applies, and `BLOCK`,
one processing step (R174). -/

namespace Sys2Proof.Machine

/-! ### Sample Deinterleaver (40_deinterleaver.md) -/

/-- `SCONV` (R100): `sext_32((b XOR 0x80)[7:0])`. -/
def sconv (b : Byte) : Int := (b ^^^ 0x80#8).toInt

/-- `DEINT` (R101), the in-phase samples `si[j]` of the group at `base`. -/
def deintI (byteAt : Nat → Byte) (base j : Nat) : Int := sconv (byteAt (inPhaseAddr base j))

/-- `DEINT` (R101), the quadrature samples `sq[j]` of the group at `base`. -/
def deintQ (byteAt : Nat → Byte) (base j : Nat) : Int := sconv (byteAt (quadratureAddr base j))

/-! ### Decimator, stage 1 (41_decimator.md) -/

/-- A decimated complex sample: the stage-1 sums (R110, R160). -/
structure Decimated where
  i : Int
  q : Int
deriving DecidableEq, Repr

/-- `DEC1` (R110) on one channel: the integer sum of the 8 samples, not divided and not rounded (R111). -/
def dec1 (samples : Nat → Int) : Int := forTo 8 (fun j sum => sum + samples j) 0

/-- `cur` of R174: the decimated sample of group `t` of block `k`. -/
def decimate (byteAt : Nat → Byte) (k t : Nat) : Decimated where
  i := dec1 (deintI byteAt (groupBase k t))
  q := dec1 (deintQ byteAt (groupBase k t))

/-! ### Polar Discriminator (42_discriminator.md) -/

/-- `x` of `DISC` (R120) in its integer form. -/
def discX (old new : Decimated) : Int := old.i * new.i + old.q * new.q

/-- `y` of `DISC` (R120) in its integer form. -/
def discY (old new : Decimated) : Int := old.i * new.q - old.q * new.i

/-! ### Fast Arctangent Approximator (43_arctangent.md) -/

/-- `r` (R132): the ratio, with its guard. -/
def ratio (mn mx : Rat) : Rat := if mx = 0 then 0 else fdiv mn mx

/-- `a(r)` (R133): the polynomial, as a chain of five operations each rounded once. -/
def atanPoly (r : Rat) : Rat :=
  let s := fmul r r
  let q1 := fma polyC2 s polyC1
  let q2 := fma q1 s polyC0
  let u := fmul q2 s
  fma u r r

/-- `a1` (R135): octant correction, with the strict comparison. -/
def octant (xa ya a : Rat) : Rat := if ya > xa then fsub halfPi32 a else a

/-- `a2` (R136): quadrant correction. -/
def quadrant (x a1 : Rat) : Rat := if x < 0 then fsub pi32 a1 else a1

/-- `ang` (R137): sign correction. -/
def signCorrect (y a2 : Rat) : Rat := if y < 0 then fneg a2 else a2

/-- `ATAN2A` (R130). -/
def atan2a (x y : Rat) : Rat :=
  let xa := fabs x
  let ya := fabs y
  let r := ratio (fmin xa ya) (fmax xa ya)
  signCorrect y (quadrant x (octant xa ya (atanPoly r)))

/-- One transition: the discriminator on `(old, new)`, its integers converted (R120: `x = i2f(…)`, `y = i2f(…)`), then the
arctangent. -/
def angle (old new : Decimated) : Rat := atan2a (i2f (discX old new)) (i2f (discY old new))

/-! ### Decimator, stage 2 (41_decimator.md) -/

/-- One addition of `DEC2` (R114). -/
def dec2Add (acc ang : Rat) : Rat := fadd acc ang

/-- `DEC2` (R114): the running sum from `+0`, transition 0 first, each step rounded. -/
def dec2 (angles : Nat → Rat) : Rat := forTo 8 (fun t acc => dec2Add acc (angles t)) 0

/-! ### Gain/Output Stage (44_output_stage.md) -/

/-- `SCALE` (R150), a function of `VOLF` alone. -/
def scale (volf : BitVec 16) : Rat := fdiv (i2f volf.toNat) pi32

/-- `GAIN` (R151). -/
def gain (acc sc : Rat) : Rat := fmul acc sc

/-- `WRAP16` (R153): the low 16 bits; no saturation, no flag. -/
def wrap16 (n : Int) : Pcm := BitVec.ofInt 16 n

/-- `GAIN`, `TRUNC` (R152) and `WRAP16` in turn: the output sample of a sum of angles. -/
def outputSample (acc sc : Rat) : Pcm := wrap16 (f2iTrunc (gain acc sc))

/-! ### One processing step (R174) -/

/-- The locals of `BLOCK` that go from one transition to the next. -/
structure Lane where
  acc : Rat
  prev : Decimated

/-- The body of R174's loop over `t`. -/
def transition (byteAt : Nat → Byte) (k t : Nat) (l : Lane) : Lane :=
  let cur := decimate byteAt k t
  { acc := dec2Add l.acc (angle l.prev cur), prev := cur }

/-- What `BLOCK` returns: the output sample and the new `prev`. -/
structure BlockResult where
  out : Pcm
  prev : Decimated

/-- `BLOCK(k, prev)` (R174). -/
def block (byteAt : Nat → Byte) (sc : Rat) (k : Nat) (prev : Decimated) : BlockResult :=
  let l := forTo 8 (transition byteAt k) { acc := 0, prev := prev }
  { out := outputSample l.acc sc, prev := l.prev }

end Sys2Proof.Machine
end

