-- ==== Sys2Proof/Machine/Commands.lean ====
section
/-! DEFINITION. The meanings of the three commands (46_commands.md). Each runs in a state in which the command is in
flight and ends it, by completion (R170) or by rejection (R193); a rejection is a next state. -/

namespace Sys2Proof.Machine

/-- RESET (R171, R162): the carryover is cleared and nothing else. -/
def execReset (s : State) : Host.Outcome State Fault Refusal :=
  .next (s.setCarry 0#32 0#32).complete

/-- SETVOL (R172): `VOLF <- FACTOR`. Every factor is accepted. -/
def execSetvol (factor : BitVec 16) (s : State) : Host.Outcome State Fault Refusal :=
  .next (s.setVolf factor).complete

/-- The locals of PROCESS that go from one block to the next (R173), with the memory its samples are stored in. -/
structure Stream where
  prev : Decimated
  obuf : Memory

/-- The body of R173's loop over `k`: `BLOCK(k, prev)`, then `MemWrite(OBUF, 2*k, 2, out_k)` (R154). -/
def processBlock (byteAt : Nat → Byte) (sc : Rat) (k : Nat) (p : Stream) : Stream :=
  let b := block byteAt sc k p.prev
  { prev := b.prev, obuf := p.obuf.write (sampleAddr k) 2 b.out.toNat }

/-- `prev` of R173 at the start of the command: the carryover registers (R161). -/
def State.carry (s : State) : Decimated := { i := s.carryI.toInt, q := s.carryQ.toInt }

/-- The first `n` blocks of a PROCESS (R173's loop). `SCALE` is read once. -/
def processBlocks (s : State) (n : Nat) : Stream :=
  forTo n (processBlock (s.byteAt .ibuf) (scale s.volf)) { prev := s.carry, obuf := s.obuf }

/-- R173: `if N >= 1 then (CARRY_I, CARRY_Q) <- prev`. -/
def State.writeBack (s : State) (n : Nat) (prev : Decimated) : State :=
  if 1 ≤ n then s.setCarry (BitVec.ofInt 32 prev.i) (BitVec.ofInt 32 prev.q) else s

/-- PROCESS (R173): `BAD_LENGTH`, then `BUFFER_RANGE`, are checked before any effect (R192). -/
def execProcess (len : BitVec 24) (s : State) : Host.Outcome State Fault Refusal :=
  if lenBytes len % Config.blockBytes ≠ 0 then .next (s.reject .badLength)
  else if s.ibufBytes < lenBytes len then .next (s.reject .bufferRange)
  else
    let n := lenBlocks len
    let p := processBlocks s n
    .next (((s.setObuf p.obuf).writeBack n p.prev).setOcount (BitVec.ofNat 32 n)).complete

end Sys2Proof.Machine
end

