-- ==== Sys2Proof/Machine/Dispatch.lean ====
section
/-! DEFINITION. One arm per command. -/

namespace Sys2Proof.Machine

-- One command, to completion or to its rejection (R170).
def exec (i : Instr) (s : State) : Host.Outcome State Fault Refusal :=
  match i with
  | .reset => Sys2Proof.Machine.execReset s
  | .setvol factor => Sys2Proof.Machine.execSetvol factor s
  | .process len => Sys2Proof.Machine.execProcess len s

end Sys2Proof.Machine
end

