-- ==== Sys2Proof/Machine/HostBus.lean ====
section
/-! DEFINITION. The host's transactions (R7, R59, R222), the order of moves (R8, R60) and the command the CORE takes up
(R28, R170). -/

namespace Sys2Proof.Machine

/-! ### The transaction names of R7 -/

/-- `WRCMD w`. -/
def HostTx.wrcmd (w : Word) : HostTx := .wrreg 0x00 w

/-- `RDREG STATUS`. -/
def HostTx.rdstatus : HostTx := .rdreg 0x04

/-- `RDOBUF16 k`: the sample at byte address `2k`. -/
def HostTx.rdobuf16 (k : Nat) : HostTx := .rdobufHalf (sampleAddr k)

/-! ### One transaction -/

/-- A write to the register window (R27, R28): a write of `CMD` starts a command, one to a read-only register is ignored
(U7). While `BUSY = 1` no write is allowed (R59). -/
def hostWriteReg (offset : Nat) (w : Word) (s : State) : Host.Outcome State Fault Refusal :=
  match regAt offset with
  | none => .refused (.reservedOffset offset)
  | some r =>
    if s.busy then .refused (.protocolViolation (.wrreg offset w))
    else if r = .cmd then .next (s.accept w)
    else .next s

/-- A read of the register window (R27): `STATUS` at any time, the others while `BUSY = 0` (R59). -/
def hostReadReg (offset : Nat) (s : State) : Host.Outcome State Fault Refusal :=
  match regAt offset with
  | none => .refused (.reservedOffset offset)
  | some r =>
    if s.busy ∧ r ≠ .status then .refused (.protocolViolation (.rdreg offset))
    else .next (s.observe (.word (s.regRead r)))

/-- `WRIBUF` (R7, R59). A transaction that leaves `IBUF` at any byte has no effect at all: it faults (log entry 9). -/
def hostWriteIbuf (addr : Nat) (bytes : List Byte) (s : State) : Host.Outcome State Fault Refusal :=
  if s.busy then .refused (.protocolViolation (.wribuf addr bytes))
  else if bytes ≠ [] ∧ s.ibufBytes < addr + bytes.length then .fault (.noSuchAddress .ibuf addr)
  else .next (s.setIbuf (s.ibuf.writeBytes addr bytes))

/-- A byte read of `IBUF` by the host (R59). -/
def hostReadIbuf (addr : Nat) (s : State) : Host.Outcome State Fault Refusal :=
  if s.busy then .refused (.protocolViolation (.rdibuf addr))
  else if s.ibufBytes ≤ addr then .fault (.noSuchAddress .ibuf addr)
  else .next (s.observe (.byte (s.byteAt .ibuf addr)))

/-- A byte read of `OBUF` (R53, R59). -/
def hostReadObufByte (addr : Nat) (s : State) : Host.Outcome State Fault Refusal :=
  if s.busy then .refused (.protocolViolation (.rdobufByte addr))
  else if s.obufBytes ≤ addr then .fault (.noSuchAddress .obuf addr)
  else .next (s.observe (.byte (s.byteAt .obuf addr)))

/-- A 16-bit read of `OBUF`, at an even address (R53, R58). `OBUF_BYTES` is even, so the second byte is inside it as well. -/
def hostReadObufHalf (addr : Nat) (s : State) : Host.Outcome State Fault Refusal :=
  if s.busy then .refused (.protocolViolation (.rdobufHalf addr))
  else if addr % 2 ≠ 0 then .refused (.misalignedRead addr)
  else if s.obufBytes ≤ addr then .fault (.noSuchAddress .obuf addr)
  else .next (s.observe (.half (BitVec.ofNat 16 (memRead (s.byteAt .obuf) addr 2))))

/-- A transaction of the host takes effect. `HRESET` may come at any time (R210, R222). -/
def hostStep (t : HostTx) (s : State) : Host.Outcome State Fault Refusal :=
  match t with
  | .hreset => .next s.hardwareReset
  | .wrreg offset w => hostWriteReg offset w s
  | .rdreg offset => hostReadReg offset s
  | .wribuf addr bytes => hostWriteIbuf addr bytes s
  | .rdibuf addr => hostReadIbuf addr s
  | .rdobufByte addr => hostReadObufByte addr s
  | .rdobufHalf addr => hostReadObufHalf addr s

/-! ### Who moves, and what the CORE takes up -/

/-- The next move and the state with that move taken off the schedule. With no move left the CORE moves (log entry 2): a
running command always completes (R223). -/
def nextMove (s : State) : Event × State :=
  match s.schedule with
  | [] => (.core, s)
  | e :: rest => (e, s.setSchedule rest)

/-- What the CORE has before it. -/
inductive Taken where
  /-- No command is in flight: between commands the CORE changes no state (R8). -/
  | idle
  /-- The word does not decode (R86). -/
  | illegal (why : Undecodable)
  | command (i : Instr)
deriving DecidableEq, Repr

/-- R170 (2): the command word in flight is decoded. -/
def takeCommand (s : State) : Taken :=
  match s.running with
  | none => .idle
  | some w =>
    match decode w with
    | .ok i => .command i
    | .error why => .illegal why

/-- R170 (3), R86: an illegal word is rejected with `ILLEGAL_CMD`. -/
def rejectIllegal (s : State) : Host.Outcome State Fault Refusal := .next (s.reject .illegalCmd)

/-- The CORE between commands (R8, R200): it holds all its state. -/
def idleStep (s : State) : Host.Outcome State Fault Refusal := .next s

/-- The command word `w` in flight, and the CORE to move next. -/
def placeCommand (s : State) (w : Nat) : State :=
  { s with running := some (BitVec.ofNat 32 w), schedule := .core :: s.schedule }

end Sys2Proof.Machine
end

