-- ==== Sys2Proof/Machine/Step.lean ====
section
/-! DEFINITION. One step: one transaction of the host, or one move of the CORE (R8, R170). -/

namespace Sys2Proof.Machine

/-- A move of the CORE: the command in flight runs to its end in one atomic transition (R8); with none it idles. -/
def coreStep (s : State) : Host.Outcome State Fault Refusal :=
  match takeCommand s with
  | .idle => idleStep s
  | .illegal _ => rejectIllegal s
  | .command i => exec i s

/-- One step of the host and the CORE together. -/
def step (s : State) : Host.Outcome State Fault Refusal :=
  match nextMove s with
  | (.host t, s') => hostStep t s'
  | (.core, s') => coreStep s'

/-- The machine with a command accepted and the CORE to move next: the CORE fetches no instruction (R26, R63); a command
comes to it as the data of a `WRCMD`, and this state is the one right after that `WRCMD` (log entry 3). -/
def State.withFetchWord (s : State) (_nbits w : Nat) : State := placeCommand s w

end Sys2Proof.Machine
end

