-- ==== Sys2Proof/Safety.lean ====
section
/-! DEFINITION. What counts as a safe run, in the terms that claims use: the invariant of the state between moves (R33),
the moves the interface offers the host (R59, R222), and the states a run reaches. -/

namespace Sys2Proof.Machine

/-- Every listed address of a memory lies below `size`. -/
def Memory.Within (m : Memory) (size : Nat) : Prop := ∀ c ∈ m, c.1 < size

/-- R33: a register of the carryover holds a value in -1024..+1016. -/
def InCarryRange (w : Word) : Prop := -1024 ≤ w.toInt ∧ w.toInt ≤ 1016

/-- R112: both components of a decimated sample lie in -1024..+1016. -/
def Decimated.InRange (d : Decimated) : Prop := (-1024 ≤ d.i ∧ d.i ≤ 1016) ∧ (-1024 ≤ d.q ∧ d.q ≤ 1016)

/-- What holds of the state between any two moves. -/
structure State.Inv (s : State) : Prop where
  /-- Both memories are in their canonical form. -/
  ibuf_wf : s.ibuf.wf = true
  obuf_wf : s.obuf.wf = true
  /-- R50: nothing is stored outside the two memories. -/
  ibuf_within : s.ibuf.Within s.ibufBytes
  obuf_within : s.obuf.Within s.obufBytes
  /-- R33. -/
  carryI_range : InCarryRange s.carryI
  carryQ_range : InCarryRange s.carryQ
  /-- R24: `OCOUNT` is a number of samples that `OBUF` has room for. -/
  ocount_fits : 2 * s.ocount.toNat ≤ s.obufBytes
  /-- R23, R193: a code other than `OK` is that of a rejection, which has set `FAULT`. -/
  fault_explains : s.errcode ≠ .ok → s.fault = true

/-- R59, R222: the host may make this transaction now. A write to a read-only register counts as allowed while `BUSY = 0`: R27
says that it is ignored (log entry 10). -/
def HostTx.allowed (s : State) : HostTx → Bool
  | .hreset => true
  | .wrreg offset _ => !s.busy && (regAt offset).isSome
  | .rdreg offset => regAt offset == some .status || (!s.busy && (regAt offset).isSome)
  | .wribuf addr bytes => !s.busy && (bytes.isEmpty || decide (addr + bytes.length ≤ s.ibufBytes))
  | .rdibuf addr => !s.busy && decide (addr < s.ibufBytes)
  | .rdobufByte addr => !s.busy && decide (addr < s.obufBytes)
  | .rdobufHalf addr => !s.busy && decide (addr % 2 = 0) && decide (addr + 1 < s.obufBytes)

/-- R121, R161: the decimated sample that comes before block `k` of a PROCESS begun in `s`: the carryover for `k = 0`, else the
sample of group 7 of block `k - 1`. -/
def State.prevOf (s : State) : Nat → Decimated
  | 0 => s.carry
  | k + 1 => decimate (s.byteAt .ibuf) k 7

/-- R141, D22: the accuracy of the angle against the reference function (R141: "A model that needs the bound as a hypothesis
should state it as a named property of the numerics"). Nothing of the model and no statement rests on it. -/
def AngleAccuracy : Prop :=
  ∀ x y : Int, |x| ≤ 2 ^ 21 → |y| ≤ 2 ^ 21 →
    |((atan2a x y : Rat) : ℝ) - Complex.arg ⟨(x : ℝ), (y : ℝ)⟩| < 21 / 100000

/-- R174: the output sample of block `k` of a PROCESS begun in `s`. -/
def State.sampleOf (s : State) (k : Nat) : Pcm := (block (s.byteAt .ibuf) (scale s.volf) k (s.prevOf k)).out

/-- R58, R190: the two checks of PROCESS pass. -/
def State.accepts (s : State) (len : BitVec 24) : Prop :=
  lenBytes len % Config.blockBytes = 0 ∧ lenBytes len ≤ s.ibufBytes

/-- The next move is the CORE's. -/
def State.coreMoves (s : State) : Prop := s.schedule = [] ∨ ∃ rest, s.schedule = .core :: rest

/-- The next move is a hardware reset. -/
def State.resetMoves (s : State) : Prop := ∃ rest, s.schedule = .host .hreset :: rest

/-- The state right after a hardware reset of a CORE with an `IBUF` of any size, the host about to make any moves at all
(R224: a run starts with `HRESET`). -/
def State.start (size : Config.BufferSize) (moves : List Event) : State :=
  { State.reset with ibufSize := size, schedule := moves }

/-- The states a run reaches. -/
inductive Reachable : State → Prop where
  | start (size : Config.BufferSize) (moves : List Event) : Reachable (State.start size moves)
  | step {s t : State} : Reachable s → step s = .next t → Reachable t

end Sys2Proof.Machine
end

