-- ==== Sys2Proof/Certificates/Slice0/Obligations.lean ====
section
/-! DEFINITION. The statements for the provers, from the numbered rules of spec/. Each docstring names the rule; what is
the model's own choice names its log entry (notes/assumptions). -/

open Sys2Proof Sys2Proof.Machine

/-! ### Encoding (30_encoding.md) -/

/-- R81 to R84, R91: decoding an encoded command gives it back, every operand at every value. -/
def Obligations.DecodeOfEncode : Prop :=
  ∀ i : Instr, i.wellFormed = true → decode (encode i) = .ok i

/-- R80 to R84, R86, R91: the word of a command is the only word that decodes to it. -/
def Obligations.EncodeOfDecode : Prop :=
  ∀ (w : Word) (i : Instr), decode w = .ok i → encode i = w

/-- R91: the decode algorithm on the value of the word, total on all 2^32 words. -/
def Obligations.DecodeFollowsTheFields : Prop :=
  ∀ w : Word,
    (decode w = .ok .reset ↔ w.toNat / 2 ^ 28 = 1 ∧ w.toNat % 2 ^ 28 = 0) ∧
    (∀ factor : BitVec 16, decode w = .ok (.setvol factor) ↔
      w.toNat / 2 ^ 28 = 2 ∧ w.toNat / 2 ^ 16 % 2 ^ 12 = 0 ∧ factor.toNat = w.toNat % 2 ^ 16) ∧
    (∀ len : BitVec 24, decode w = .ok (.process len) ↔
      w.toNat / 2 ^ 28 = 3 ∧ w.toNat / 2 ^ 24 % 2 ^ 4 = 0 ∧ len.toNat = w.toNat % 2 ^ 24) ∧
    ((∃ why, decode w = .error why) ↔
      ¬ (w.toNat / 2 ^ 28 = 1 ∧ w.toNat % 2 ^ 28 = 0) ∧
      ¬ (w.toNat / 2 ^ 28 = 2 ∧ w.toNat / 2 ^ 16 % 2 ^ 12 = 0) ∧
      ¬ (w.toNat / 2 ^ 28 = 3 ∧ w.toNat / 2 ^ 24 % 2 ^ 4 = 0))

/-- R82 to R84, R86: a few words, written out from the patterns of the spec. -/
def Obligations.SampleWordsDecode : Prop :=
  decode 0b00010000000000000000000000000000#32 = .ok .reset ∧
  decode 0b00100000000000000001000000000001#32 = .ok (.setvol 4097#16) ∧
  decode 0b00110000000000000000000010000000#32 = .ok (.process 128#24) ∧
  decode 0b00110000111111111111111110000000#32 = .ok (.process 16777088#24) ∧
  decode 0x10000001#32 = .error .resetReservedBits ∧
  decode 0x20010000#32 = .error .setvolReservedBits ∧
  decode 0x31000000#32 = .error .processReservedBits ∧
  decode 0x00000000#32 = .error (.reservedOp 0#4) ∧
  decode 0x40000000#32 = .error (.reservedOp 4#4)

/-- R89: the command word of each assembler line, and no command for an operand outside its range. -/
def Obligations.AssembledWords : Prop :=
  (∃ i, assemble .reset = some i ∧ encode i = 0x10000000#32) ∧
  (∀ factor, factor ≤ 65535 → ∃ i, assemble (.setvol factor) = some i ∧ (encode i).toNat = 0x20000000 + factor) ∧
  (∀ len, len ≤ 16777215 → ∃ i, assemble (.process len) = some i ∧ (encode i).toNat = 0x30000000 + len) ∧
  (∀ factor, 65535 < factor → assemble (.setvol factor) = none) ∧
  (∀ len, 16777215 < len → assemble (.process len) = none)

/-! ### A step, and the life of a command (R8, R170) -/

/-- R170 (2), (3): where the CORE moves, a step is the decoded command's meaning in the state with that move taken off the
schedule. (The schedule is the model's own, log entry 1.) -/
def Obligations.StepRunsTheDecodedCommand : Prop :=
  ∀ (s : State) (w : Word) (i : Instr), s.running = some w → decode w = .ok i → i.wellFormed = true →
    (∀ rest, s.schedule = .core :: rest → step s = exec i { s with schedule := rest }) ∧
    (s.schedule = [] → step s = exec i s)

/-- R28, R170 (1): a `WRCMD` while `BUSY = 0` puts the word in flight, `STATUS` then reads `BUSY = 1`, and nothing else
changes. -/
def Obligations.WrcmdStartsACommand : Prop :=
  ∀ (s : State) (w : Word) (rest : List Event), s.running = none → s.schedule = .host (.wrcmd w) :: rest →
    step s = .next { s with schedule := rest, running := some w } ∧
    ({ s with schedule := rest, running := some w } : State).statusWord.getLsbD 0 = true

/-- R170, R223: a command in flight always comes to its end in the CORE's next move: no fault, no refusal, `BUSY = 0`
after it. -/
def Obligations.EveryCommandEnds : Prop :=
  ∀ (s : State) (w : Word), s.running = some w → s.coreMoves →
    ∃ t, step s = .next t ∧ t.running = none ∧ t.schedule = s.schedule.tail ∧ t.reads = s.reads ∧
      t.ibuf = s.ibuf ∧ t.epoch = s.epoch

/-- R193: what a rejection does, for each of its three causes, and that it does nothing else. -/
def Obligations.RejectionWritesOnlyStatus : Prop :=
  ∀ (s : State) (w : Word) (rest : List Event), s.running = some w → s.schedule = .core :: rest →
    ((∀ i, decode w ≠ .ok i) →
      step s = .next { s with schedule := rest, errcode := .illegalCmd, fault := true, running := none }) ∧
    (∀ len : BitVec 24, decode w = .ok (.process len) → len.toNat % 128 ≠ 0 →
      step s = .next { s with schedule := rest, errcode := .badLength, fault := true, running := none }) ∧
    (∀ len : BitVec 24, decode w = .ok (.process len) → len.toNat % 128 = 0 → s.ibufBytes < len.toNat →
      step s = .next { s with schedule := rest, errcode := .bufferRange, fault := true, running := none })

/-- R190, R192: `ERRCODE` names the cause, one code per command and in the fixed order of the checks, and the codes are the
table's. -/
def Obligations.ErrcodeNamesTheCause : Prop :=
  (∀ (s t : State) (w : Word), s.running = some w → s.coreMoves → step s = .next t →
    (t.errcode = .illegalCmd ↔ ∀ i, decode w ≠ .ok i) ∧
    (t.errcode = .badLength ↔ ∃ len, decode w = .ok (.process len) ∧ len.toNat % 128 ≠ 0) ∧
    (t.errcode = .bufferRange ↔ ∃ len, decode w = .ok (.process len) ∧ len.toNat % 128 = 0 ∧ s.ibufBytes < len.toNat) ∧
    (t.errcode = .ok ↔ decode w = .ok .reset ∨ (∃ f, decode w = .ok (.setvol f)) ∨
      ∃ len, decode w = .ok (.process len) ∧ s.accepts len)) ∧
  ErrCode.ok.code = 0#3 ∧ ErrCode.illegalCmd.code = 1#3 ∧ ErrCode.badLength.code = 2#3 ∧ ErrCode.bufferRange.code = 3#3

/-- R23, R194: `FAULT` is set by exactly the rejections and cleared only by a hardware reset. -/
def Obligations.FaultIsSticky : Prop :=
  ∀ s t : State, step s = .next t →
    (s.fault = true → t.fault = true ∨ s.resetMoves) ∧
    (s.fault = false → t.fault = true →
      s.coreMoves ∧ t.errcode ≠ .ok ∧ t = { s with schedule := t.schedule, errcode := t.errcode, fault := true, running := none }) ∧
    (s.coreMoves → (∃ w, s.running = some w) → t.errcode ≠ .ok → t.fault = true)

/-- R8, R200: between commands the CORE holds all its state. -/
def Obligations.IdleCoreHoldsItsState : Prop :=
  ∀ s : State, s.running = none →
    (∀ rest, s.schedule = .core :: rest → step s = .next { s with schedule := rest }) ∧
    (s.schedule = [] → step s = .next s)

/-- R20 to R24, R32, R55, R59: which moves change which piece of state, hardware reset apart. -/
def Obligations.EveryChangeHasItsCause : Prop :=
  ∀ s t : State, step s = .next t → ¬ s.resetMoves →
    (t.volf ≠ s.volf → s.coreMoves ∧ ∃ w, s.running = some w ∧ decode w = .ok (.setvol t.volf)) ∧
    (t.carryI ≠ s.carryI ∨ t.carryQ ≠ s.carryQ → s.coreMoves ∧ ∃ w, s.running = some w ∧
      (decode w = .ok .reset ∨ ∃ len, decode w = .ok (.process len) ∧ s.accepts len ∧ 128 ≤ len.toNat)) ∧
    (t.ocount ≠ s.ocount ∨ t.obuf ≠ s.obuf → s.coreMoves ∧ ∃ w, s.running = some w ∧
      ∃ len, decode w = .ok (.process len) ∧ s.accepts len) ∧
    (t.ibuf ≠ s.ibuf → s.running = none ∧ ∃ a bs rest, s.schedule = .host (.wribuf a bs) :: rest) ∧
    (t.errcode ≠ s.errcode → s.coreMoves ∧ ∃ w, s.running = some w) ∧
    t.ibufSize = s.ibufSize ∧ t.epoch = s.epoch

/-! ### The three commands (46_commands.md) -/

/-- R171: RESET, its one word, its whole effect and its frame. -/
def Obligations.ResetClearsTheCarryoverOnly : Prop :=
  (∀ w : Word, decode w = .ok .reset ↔ w = 0x10000000#32) ∧
  ∀ s : State, exec .reset s = .next { s with carryI := 0#32, carryQ := 0#32, errcode := .ok, running := none }

/-- R172: SETVOL, its word, its whole effect and its frame, for every factor, the scale that follows from it, and
that the factor 0 makes every sample 0. -/
def Obligations.SetvolWritesTheFactorOnly : Prop :=
  ∀ (factor : BitVec 16) (s : State),
    (encode (.setvol factor)).toNat = 0x20000000 + factor.toNat ∧
    exec (.setvol factor) s = .next { s with volf := factor, errcode := .ok, running := none } ∧
    scale factor = fdiv (i2f factor.toNat) pi32 ∧
    ∀ acc, outputSample acc (scale 0#16) = 0#16

/-- R173, R161, R154, R55: an accepted PROCESS ends in a next state. Each block's sample is stored at its own address, low
byte first; the carryover becomes the last decimated sample; every other byte and register is as before. -/
def Obligations.ProcessStoresTheSamples : Prop :=
  ∀ (s : State) (len : BitVec 24), s.accepts len →
    ∃ t, exec (.process len) s = .next t ∧
      (∀ k, k < lenBlocks len →
        t.sample k = s.sampleOf k ∧
        t.byteAt .obuf (sampleAddr k) = (s.sampleOf k).extractLsb' 0 8 ∧
        t.byteAt .obuf (sampleAddr k + 1) = (s.sampleOf k).extractLsb' 8 8) ∧
      (∀ a, (∀ k, k < lenBlocks len → a ≠ sampleAddr k ∧ a ≠ sampleAddr k + 1) →
        t.byteAt .obuf a = s.byteAt .obuf a) ∧
      (∀ a, t.byteAt .ibuf a = s.byteAt .ibuf a) ∧
      (lenBlocks len = 0 → t.carryI = s.carryI ∧ t.carryQ = s.carryQ) ∧
      (1 ≤ lenBlocks len →
        t.carryI = BitVec.ofInt 32 (decimate (s.byteAt .ibuf) (lenBlocks len - 1) 7).i ∧
        t.carryQ = BitVec.ofInt 32 (decimate (s.byteAt .ibuf) (lenBlocks len - 1) 7).q) ∧
      t.ocount.toNat = lenBlocks len ∧ t.errcode = .ok ∧ t.running = none ∧
      t = { s with
        carryI := t.carryI, carryQ := t.carryQ, obuf := t.obuf, ocount := t.ocount, errcode := .ok, running := none }

/-- R176: the length law. The bytes that an accepted PROCESS writes are exactly those below `LEN/64`. -/
def Obligations.ProcessWritesExactlyItsSamples : Prop :=
  ∀ (s t : State) (len : BitVec 24), s.accepts len → exec (.process len) s = .next t →
    t.ocount.toNat = len.toNat / 128 ∧
    (∀ a, a < len.toNat / 64 → ∃ b, t.obuf.get? a = some b) ∧
    (∀ a, len.toNat / 64 ≤ a → t.obuf.get? a = s.obuf.get? a) ∧
    len.toNat / 64 ≤ s.obufBytes

/-- R175: PROCESS with `LEN = 0`. -/
def Obligations.EmptyProcess : Prop :=
  ∀ s : State, exec (.process 0#24) s = .next { s with ocount := 0#32, errcode := .ok, running := none }

/-- R174, R114, R121: one processing step spelled out: the chain of the 8 decimated samples, the running sum of the 8
angles, transition 0 first, then gain, truncation and wrap. -/
def Obligations.BlockIsThePipeline : Prop :=
  ∀ (byteAt : Nat → Byte) (sc : Rat) (k : Nat) (prev : Decimated),
    let c := decimate byteAt k
    let ang := fun (old new : Decimated) =>
      atan2a (i2f (old.i * new.i + old.q * new.q)) (i2f (old.i * new.q - old.q * new.i))
    (block byteAt sc k prev).prev = c 7 ∧
    (block byteAt sc k prev).out = BitVec.ofInt 16 (f2iTrunc (fmul
      (fadd (fadd (fadd (fadd (fadd (fadd (fadd (fadd 0 (ang prev (c 0))) (ang (c 0) (c 1))) (ang (c 1) (c 2)))
        (ang (c 2) (c 3))) (ang (c 3) (c 4))) (ang (c 4) (c 5))) (ang (c 5) (c 6))) (ang (c 6) (c 7))) sc))

/-- R54, R100, R101, R110: the decimated sample as the sum of the 8 bytes of each channel, at their addresses in `IBUF`,
each less 128. -/
def Obligations.DecimatedSampleIsTheSum : Prop :=
  ∀ (byteAt : Nat → Byte) (k t : Nat),
    (decimate byteAt k t).i =
      ((List.range 8).map fun j => ((byteAt (128 * k + 16 * t + 2 * j)).toNat : Int) - 128).sum ∧
    (decimate byteAt k t).q =
      ((List.range 8).map fun j => ((byteAt (128 * k + 16 * t + 2 * j + 1)).toNat : Int) - 128).sum

/-! ### Laws of PROCESS -/

/-- R164: splitting a buffer into two PROCESS commands gives the same samples and the same final carryover, word for word,
whatever the host does between them that leaves the carryover, the factor and the size, and puts the rest of the buffer in
`IBUF`. -/
def Obligations.SplitProcessIsContinuous : Prop :=
  ∀ (s s₂ t₁ t₂ t : State) (lenA lenB lenAB : BitVec 24),
    lenAB.toNat = lenA.toNat + lenB.toNat → lenA.toNat % 128 = 0 → s.accepts lenAB →
    exec (.process lenA) s = .next t₁ →
    s₂.carryI = t₁.carryI → s₂.carryQ = t₁.carryQ → s₂.volf = t₁.volf → s₂.ibufSize = t₁.ibufSize →
    (∀ a, a < lenB.toNat → s₂.byteAt .ibuf a = s.byteAt .ibuf (lenA.toNat + a)) →
    exec (.process lenB) s₂ = .next t₂ →
    exec (.process lenAB) s = .next t →
    t₂.carryI = t.carryI ∧ t₂.carryQ = t.carryQ ∧
    (∀ k, k < lenBlocks lenA → t.sample k = t₁.sample k) ∧
    (∀ k, k < lenBlocks lenB → t.sample (lenBlocks lenA + k) = t₂.sample k)

/-- R177: a sample is a function of its 128 bytes, the decimated sample before them, and the factor: not of its number, of
the length, or of any other state. -/
def Obligations.SampleIsLocal : Prop :=
  ∀ (s s' t t' : State) (len len' : BitVec 24) (k l : Nat),
    s.accepts len → s'.accepts len' → k < lenBlocks len → l < lenBlocks len' →
    exec (.process len) s = .next t → exec (.process len') s' = .next t' →
    s.volf = s'.volf → s.prevOf k = s'.prevOf l →
    (∀ i, i < 128 → s.byteAt .ibuf (128 * k + i) = s'.byteAt .ibuf (128 * l + i)) →
    t.sample k = t'.sample l

/-- R54, R58: PROCESS reads no byte of `IBUF` at or above `LEN`: two states that agree below it, in the carryover and in the
factor, get the same samples and the same carryover. -/
def Obligations.ProcessReadsOnlyItsLength : Prop :=
  ∀ (s s' t t' : State) (len : BitVec 24),
    s.accepts len → s'.accepts len → s.volf = s'.volf → s.carryI = s'.carryI → s.carryQ = s'.carryQ →
    (∀ a, a < len.toNat → s.byteAt .ibuf a = s'.byteAt .ibuf a) →
    exec (.process len) s = .next t → exec (.process len) s' = .next t' →
    t.carryI = t'.carryI ∧ t.carryQ = t'.carryQ ∧ t.ocount = t'.ocount ∧
    ∀ k, k < lenBlocks len → t.sample k = t'.sample k

/-- R178: after RESET, an input of one repeated byte gives all-zero output, and the carryover is that byte's sum. -/
def Obligations.ConstantInputIsSilent : Prop :=
  ∀ (s r t : State) (len : BitVec 24) (b : Byte),
    exec .reset s = .next r → r.accepts len → (∀ a, a < len.toNat → r.byteAt .ibuf a = b) →
    exec (.process len) r = .next t →
    (∀ k, k < lenBlocks len → t.sample k = 0#16) ∧
    (1 ≤ lenBlocks len →
      t.carryI.toInt = 8 * ((b.toNat : Int) - 128) ∧ t.carryQ.toInt = 8 * ((b.toNat : Int) - 128))

/-- R163: after RESET the first transition has `x = 0`, `y = 0` and contributes angle 0, whatever the new sample is. -/
def Obligations.FirstAngleAfterResetIsZero : Prop :=
  ∀ (s r : State) (new : Decimated), exec .reset s = .next r →
    discX (r.prevOf 0) new = 0 ∧ discY (r.prevOf 0) new = 0 ∧ angle (r.prevOf 0) new = 0

/-- R165: a stale carryover touches the first output sample and no other, and not the final carryover. -/
def Obligations.StaleCarryoverTouchesOneSample : Prop :=
  ∀ (s t t' : State) (len : BitVec 24) (i q : Word),
    s.accepts len → exec (.process len) s = .next t →
    exec (.process len) { s with carryI := i, carryQ := q } = .next t' →
    (∀ k, 1 ≤ k → k < lenBlocks len → t.sample k = t'.sample k) ∧
    (1 ≤ lenBlocks len → t.carryI = t'.carryI ∧ t.carryQ = t'.carryQ)

/-- R172, R22: the factor affects the samples only, never the angle path: the same PROCESS under another factor leaves the
same carryover and count. -/
def Obligations.FactorLeavesTheCarryover : Prop :=
  ∀ (s t t' : State) (len : BitVec 24) (factor : BitVec 16),
    exec (.process len) s = .next t → exec (.process len) { s with volf := factor } = .next t' →
    t' = { t with volf := factor, obuf := t'.obuf }

/-! ### Floating point (00_scope.md) -/

/-- R11: `rn32 q` is the element of F32 nearest to `q`, of two equally near ones the one with an even fraction, wherever the
result is not infinity. -/
def Obligations.RoundingIsToNearestEven : Prop :=
  ∀ q : Rat, |q| < 2 ^ 128 - 2 ^ 103 →
    InF32 (rn32 q) ∧
    ∀ f, InF32 f → |q - rn32 q| ≤ |q - f| ∧
      (|q - rn32 q| = |q - f| → f ≠ rn32 q →
        ∃ w : Word, f32Finite w = true ∧ f32 w = rn32 q ∧ w.getLsbD 0 = false)

/-- R10, R11: a value of F32 is left as it is. -/
def Obligations.RoundingFixesF32 : Prop := ∀ q : Rat, InF32 q → rn32 q = q

/-- R15: the constants are the values of F32 nearest to the real numbers of the table, with the words and the decimal values
of the table. (For π and π/2 the bound is half an ulp of the constant.) -/
def Obligations.ConstantsAreNearest : Prop :=
  (rn32 (-3276227640 / 10000000000) = polyC0 ∧ polyC0 = f32 0xBEA7BE2C#32 ∧
    |polyC0 + 32762277126312256 / 10 ^ 17| < 1 / 10 ^ 17) ∧
  (rn32 (1593142200 / 10000000000) = polyC1 ∧ polyC1 = f32 0x3E232344#32 ∧
    |polyC1 - 15931421518325806 / 10 ^ 17| < 1 / 10 ^ 17) ∧
  (rn32 (-464964749 / 10000000000) = polyC2 ∧ polyC2 = f32 0xBD3E7316#32 ∧
    |polyC2 + 46496473252773285 / 10 ^ 18| < 1 / 10 ^ 18) ∧
  (pi32 = f32 0x40490FDB#32 ∧ pi32 = 31415927410125732421875 / 10 ^ 22 ∧ |(pi32 : ℝ) - Real.pi| < 1 / 2 ^ 23) ∧
  (halfPi32 = f32 0x3FC90FDB#32 ∧ halfPi32 = 157079637050628662109375 / 10 ^ 23 ∧
    |(halfPi32 : ℝ) - Real.pi / 2| < 1 / 2 ^ 24) ∧
  halfPi32 = pi32 / 2 ∧ Real.pi < (pi32 : ℝ) ∧ |(pi32 : ℝ) - Real.pi - 874 / 10 ^ 10| < 1 / 10 ^ 10

/-- R13: no value of the datapath is subnormal or overflows. For one transition, step by step of R130: the discriminator's
`x` and `y`, the ratio, its square, the two polynomial factors and their product, the polynomial, and the angle after each
correction. Then every running sum of angles, `SCALE`, and the scaled value. -/
def Obligations.DatapathStaysNormal : Prop :=
  (∀ old new : Decimated, old.InRange → new.InRange →
    let x := i2f (discX old new)
    let y := i2f (discY old new)
    let r := ratio (fmin (fabs x) (fabs y)) (fmax (fabs x) (fabs y))
    let s := fmul r r
    let q1 := fma polyC2 s polyC1
    let q2 := fma q1 s polyC0
    let u := fmul q2 s
    let a1 := octant (fabs x) (fabs y) (atanPoly r)
    let a2 := quadrant x a1
    ((x = 0 ∨ 1 ≤ |x|) ∧ |x| ≤ 2 ^ 21) ∧
    ((y = 0 ∨ 1 ≤ |y|) ∧ |y| ≤ 2 ^ 21) ∧
    ((r = 0 ∨ 1 / 2 ^ 21 ≤ r) ∧ r ≤ 1) ∧
    ((s = 0 ∨ 1 / 2 ^ 42 ≤ s) ∧ s ≤ 1) ∧
    (11 / 100 < q1 ∧ q1 < 16 / 100) ∧
    (-33 / 100 < q2 ∧ q2 < -16 / 100) ∧
    ((u = 0 ∨ u ≤ -1 / 2 ^ 45) ∧ -33 / 100 < u) ∧
    (67 / 100 * r ≤ atanPoly r ∧ atanPoly r ≤ r) ∧
    ((a1 = 0 ∨ 1 / 2 ^ 22 ≤ a1) ∧ a1 ≤ halfPi32) ∧
    ((a2 = 0 ∨ 1 / 2 ^ 22 ≤ a2) ∧ a2 ≤ pi32) ∧
    ((angle old new = 0 ∨ 1 / 2 ^ 22 ≤ |angle old new|) ∧ |angle old new| ≤ pi32)) ∧
  (∀ volf : BitVec 16, scale volf = 0 ∨ (318 / 1000 ≤ scale volf ∧ scale volf ≤ 208604375 / 10000)) ∧
  (∀ olds news : Nat → Decimated, (∀ t, (olds t).InRange ∧ (news t).InRange) →
    ∀ n, n ≤ 8 →
      let acc := forTo n (fun t acc => dec2Add acc (angle (olds t) (news t))) 0
      (∃ z : Int, acc = z / 2 ^ 45) ∧
      (acc = 0 ∨ 1 / 2 ^ 45 ≤ |acc|) ∧
      (|acc| ≤ f32 0x41C90FDA#32 ∧ |acc| ≤ 8 * pi32) ∧
      ∀ volf, (gain acc (scale volf) = 0 ∨ 1 / 2 ^ 47 ≤ |gain acc (scale volf)|) ∧ |gain acc (scale volf)| ≤ 524280)

/-! ### The units (42, 43, 44) -/

/-- R122: a product of two components and both outputs of the discriminator stay in their bounds, each bound of an output is
reached, and every product, sum and difference is in F32, so that nothing rounds. -/
def Obligations.DiscriminatorIsExact : Prop :=
  (∀ n : Int, |n| ≤ 2 ^ 24 → i2f n = n) ∧
  (∀ a b : Int, (-1024 ≤ a ∧ a ≤ 1016) → (-1024 ≤ b ∧ b ≤ 1016) →
    (-1040384 ≤ a * b ∧ a * b ≤ 1048576) ∧ fmul (i2f a) (i2f b) = a * b) ∧
  (∀ old new : Decimated, old.InRange → new.InRange →
    (-2080768 ≤ discX old new ∧ discX old new ≤ 2097152) ∧
    (-2088960 ≤ discY old new ∧ discY old new ≤ 2088960) ∧
    i2f (discX old new) = discX old new ∧ i2f (discY old new) = discY old new ∧
    fadd (fmul (i2f old.i) (i2f new.i)) (fmul (i2f old.q) (i2f new.q)) = discX old new ∧
    fsub (fmul (i2f old.i) (i2f new.q)) (fmul (i2f old.q) (i2f new.i)) = discY old new) ∧
  (∃ old new : Decimated, old.InRange ∧ new.InRange ∧ discX old new = -2080768) ∧
  (∃ old new : Decimated, old.InRange ∧ new.InRange ∧ discX old new = 2097152) ∧
  (∃ old new : Decimated, old.InRange ∧ new.InRange ∧ discY old new = -2088960) ∧
  (∃ old new : Decimated, old.InRange ∧ new.InRange ∧ discY old new = 2088960)

/-- R139: the zero case, and the four exact axes. -/
def Obligations.ArctangentOnTheAxes : Prop :=
  atan2a 0 0 = 0 ∧
  (∀ x : Rat, 0 ≤ x → atan2a x 0 = 0) ∧
  (∀ x : Rat, x < 0 → atan2a x 0 = pi32) ∧
  (∀ y : Rat, 0 < y → atan2a 0 y = halfPi32) ∧
  (∀ y : Rat, y < 0 → atan2a 0 y = -halfPi32)

/-- R140, Properties of 43_arctangent.md: the symmetries. The last clause holds for every positive rational factor: it is about
the exact arguments `c * x` and `c * y`, whose ratio is that of `x` and `y` before it is rounded, since the model carries
a datapath value as a rational number (log entry 7). R140 (c) promises less, equal angles where `fdiv` gives the same `r`:
scaled arguments that are themselves rounded to F32 may have another ratio. -/
def Obligations.ArctangentSymmetries : Prop :=
  (∀ x y : Rat, y ≠ 0 → atan2a x (-y) = -atan2a x y) ∧
  (∀ x : Rat, 0 ≤ x → atan2a x 0 = -atan2a x 0) ∧
  (∀ x : Rat, x < 0 → atan2a x 0 ≠ -atan2a x 0) ∧
  (∀ x y : Rat, 0 < x →
    atan2a (-x) y = if y < 0 then -fsub pi32 (atan2a x |y|) else fsub pi32 (atan2a x |y|)) ∧
  (∀ c x y : Rat, 0 < c → atan2a (c * x) (c * y) = atan2a x y)

/-- R138: the range of the angle: closed for every input, half-open for the integers that the CORE forms. The least value is
`0xC0490FD9`, two ulps inside, and `PI32` is reached, which exceeds π by 8.74e-8. -/
def Obligations.AngleRange : Prop :=
  (∀ x y : Rat, -pi32 ≤ atan2a x y ∧ atan2a x y ≤ pi32) ∧
  (∀ x y : Int, |x| ≤ 2 ^ 21 → |y| ≤ 2 ^ 21 → -pi32 < atan2a x y) ∧
  (∀ x y : Int, |x| ≤ 2 ^ 21 → |y| ≤ 2 ^ 21 → f32 0xC0490FD9#32 ≤ atan2a x y) ∧
  atan2a (-2097152) (-1) = f32 0xC0490FD9#32 ∧
  f32 0xC0490FD9#32 = -pi32 + 2 * ulpOf pi32 ∧
  (∀ x : Rat, x < 0 → atan2a x 0 = pi32) ∧
  |(pi32 : ℝ) - Real.pi - 874 / 10 ^ 10| < 1 / 10 ^ 10

/-- R142, with the values of R135: the angle on the lines `|y| = |x|` in every quadrant, the jump across them, and what the
non-strict comparison would have given. -/
def Obligations.JumpAtTheDiagonal : Prop :=
  (∀ c : Rat, 0 < c →
    atan2a c c = f32 0x3F49028A#32 ∧ atan2a c (-c) = -f32 0x3F49028A#32 ∧
    atan2a (-c) c = fsub pi32 (f32 0x3F49028A#32) ∧ atan2a (-c) (-c) = -fsub pi32 (f32 0x3F49028A#32)) ∧
  atan2a 2097152 2097151 = f32 0x3F490286#32 ∧
  atan2a 2097151 2097152 = f32 0x3F491D30#32 ∧
  fsub halfPi32 (f32 0x3F49028A#32) = f32 0x3F491D2C#32 ∧
  |((f32 0x3F49028A#32 : Rat) : ℝ) - Real.pi / 4 + 203 / 10 ^ 6| < 1 / 10 ^ 6

/-- R134: the bounds inside the polynomial. -/
def Obligations.PolynomialBounds : Prop :=
  (∀ r : Rat, InF32 r → 0 ≤ r → r ≤ 1 →
    let s := fmul r r
    let q1 := fma polyC2 s polyC1
    let q2 := fma q1 s polyC0
    let u := fmul q2 s
    (0 ≤ s ∧ s ≤ 1) ∧
    (1128 / 10000 < polyC1 + polyC2 ∧ polyC1 + polyC2 ≤ q1 ∧ q1 ≤ polyC1) ∧
    (polyC0 ≤ q2 ∧ q2 ≤ polyC0 + polyC1 ∧ polyC0 + polyC1 < -168 / 1000) ∧
    (polyC0 ≤ u ∧ u ≤ 0) ∧
    (67 / 100 * r ≤ atanPoly r ∧ atanPoly r ≤ r) ∧
    (0 ≤ atanPoly r ∧ atanPoly r ≤ 1) ∧
    (atanPoly r = 0 → r = 0) ∧
    (1 / 2 ^ 21 ≤ r → 1 / 2 ^ 22 < atanPoly r)) ∧
  (∀ s : ℝ, 0 ≤ s → s ≤ 1 →
    -2149 / 10000 < s * (-3276227640 / 10 ^ 10 + s * (1593142200 / 10 ^ 10 + s * (-464964749 / 10 ^ 10))) ∧
    s * (-3276227640 / 10 ^ 10 + s * (1593142200 / 10 ^ 10 + s * (-464964749 / 10 ^ 10))) ≤ 0) ∧
  (1 : Rat) + (-3276227640 / 10 ^ 10 + (1593142200 / 10 ^ 10 + (-464964749 / 10 ^ 10))) = 7851949811 / 10 ^ 10

/-- R115: no sum of 8 angles exceeds the one that eight additions of `PI32` give. -/
def Obligations.SumOfAnglesRange : Prop :=
  (∀ ang : Nat → Rat, (∀ t, t < 8 → |ang t| ≤ pi32) → |dec2 ang| ≤ f32 0x41C90FDA#32) ∧
  dec2 (fun _ => pi32) = f32 0x41C90FDA#32

/-- R150: `SCALE` is one rounded division of an exact conversion, monotonic, and exact under doubling, any number of times; and
the values that the rule lists. -/
def Obligations.ScaleLaws : Prop :=
  (∀ f : BitVec 16, i2f f.toNat = f.toNat ∧ scale f = fdiv (i2f f.toNat) pi32) ∧
  (∀ f g : BitVec 16, f.toNat ≤ g.toNat → scale f ≤ scale g) ∧
  (∀ (n : Nat) (f g : BitVec 16), g.toNat = 2 ^ n * f.toNat → scale g = 2 ^ n * scale f) ∧
  scale 0#16 = 0 ∧ scale 1#16 = f32 0x3EA2F983#32 ∧ scale 4096#16 = f32 0x44A2F983#32 ∧
  scale 8192#16 = f32 0x4522F983#32 ∧ scale 65535#16 = f32 0x46A2F8E0#32

/-- R151, R152: the scaled value and its integer part are bounded for every sum of angles and every factor, and the part is
cut off toward zero. -/
def Obligations.TruncationIsTowardZero : Prop :=
  ∀ (acc : Rat) (volf : BitVec 16), |acc| ≤ f32 0x41C90FDA#32 →
    let v := gain acc (scale volf)
    |v| ≤ f32 0x48FFFEFE#32 ∧ |f2iTrunc v| ≤ 524279 ∧
    (0 ≤ v → (f2iTrunc v : Rat) ≤ v ∧ v < f2iTrunc v + 1) ∧
    (v < 0 → v ≤ f2iTrunc v ∧ (f2iTrunc v : Rat) < v + 1)

/-- R155: at or below the default factor no output sample wraps, for any input of any PROCESS, and -32768 is never produced;
one factor higher a wrap is possible. -/
def Obligations.NoWrapUpToTheDefaultFactor : Prop :=
  (∀ (acc : Rat) (volf : BitVec 16), |acc| ≤ f32 0x41C90FDA#32 → volf.toNat ≤ 4096 →
    |f2iTrunc (gain acc (scale volf))| ≤ 32767 ∧
    (outputSample acc (scale volf)).toInt = f2iTrunc (gain acc (scale volf))) ∧
  (∀ (s t : State) (len : BitVec 24) (k : Nat), s.volf.toNat ≤ 4096 → s.accepts len → k < lenBlocks len →
    exec (.process len) s = .next t → t.sample k ≠ 0x8000#16) ∧
  gain (f32 0x41C90FDA#32) (scale 4096#16) = f32 0x46FFFFFF#32 ∧
  (scale 4097#16 = f32 0x44A303B3#32 ∧ gain (dec2 fun _ => pi32) (scale 4097#16) = f32 0x47000800#32 ∧
    f2iTrunc (f32 0x47000800#32) = 32776 ∧ (outputSample (dec2 fun _ => pi32) (scale 4097#16)).toInt = -32760)

/-- R153: the output is the low 16 bits of the integer, read as two's complement; nothing saturates. -/
def Obligations.WrapIsModulo : Prop :=
  ∀ n : Int, (-32768 ≤ (wrap16 n).toInt ∧ (wrap16 n).toInt ≤ 32767) ∧
    (∃ z : Int, n = (wrap16 n).toInt + 65536 * z) ∧
    ((wrap16 n).toNat : Int) = n % 65536

/-- R157: doubling the factor doubles the integer part, up to the truncation. -/
def Obligations.DoublingTheFactor : Prop :=
  ∀ (acc : Rat) (f g : BitVec 16), g.toNat = 2 * f.toNat →
    (acc = 0 ∨ 1 / 2 ^ 45 ≤ |acc|) →
    let v := gain acc (scale f)
    scale g = 2 * scale f ∧ gain acc (scale g) = 2 * v ∧
    (f2iTrunc (2 * v) = 2 * f2iTrunc v ∨ f2iTrunc (2 * v) = 2 * f2iTrunc v + SignType.sign v)

/-! ### State, registers and the host (10, 20, 60, 70) -/

/-- R23: the fields of `STATUS`, its reserved bits, and the codes that exist. -/
def Obligations.StatusWordFields : Prop :=
  ∀ s : State,
    (s.statusWord.getLsbD 0 = true ↔ ∃ w, s.running = some w) ∧
    s.statusWord.extractLsb' 1 3 = s.errcode.code ∧
    s.statusWord.getLsbD 4 = s.fault ∧
    s.statusWord.extractLsb' 5 27 = 0#27 ∧
    s.errcode.code.toNat ≤ 3

/-- R27: what each offset of the register window reads as while `BUSY = 0`, and that a write to a read-only register is
ignored; a write of `CMD` puts its word in flight; `STATUS` reads at any time. Nothing but the data given back changes (log entry 11). -/
def Obligations.RegisterWindow : Prop :=
  (∀ s : State, s.running = none →
    hostStep (.rdreg 0x00) s = .next { s with reads := .word 0#32 :: s.reads } ∧
    hostStep (.rdreg 0x08) s = .next { s with reads := .word (s.volf.setWidth 32) :: s.reads } ∧
    hostStep (.rdreg 0x0C) s = .next { s with reads := .word s.carryI :: s.reads } ∧
    hostStep (.rdreg 0x10) s = .next { s with reads := .word s.carryQ :: s.reads } ∧
    hostStep (.rdreg 0x14) s = .next { s with reads := .word s.ocount :: s.reads } ∧
    (∀ w : Word, hostStep (.wrreg 0x00 w) s = .next { s with running := some w }) ∧
    ∀ (o : Nat) (w : Word), o = 0x04 ∨ o = 0x08 ∨ o = 0x0C ∨ o = 0x10 ∨ o = 0x14 →
      hostStep (.wrreg o w) s = .next s) ∧
  (∀ s : State, hostStep (.rdreg 0x04) s = .next { s with reads := .word s.statusWord :: s.reads })

/-- R59, R222, and R27 for the register window: a transaction goes on exactly where the table of access rights allows it, or
where it is a write to a read-only register while `BUSY = 0`, which goes on with no effect (R27 and U7 in section 5 of
10_state.md, log entry 10). (That the others stop is the model's form of U1 and U6, log entries 8 and 9.) -/
def Obligations.HostMayDoExactlyTheTable : Prop :=
  ∀ (s : State) (t : HostTx), (∃ s', hostStep t s = .next s') ↔ t.allowed s = true

/-- R29, R58: where an access to a place that the spec reserves stops, under its own name. (The stops are the model's form
of U6, log entry 9.) -/
def Obligations.ReservedAccessesStop : Prop :=
  ∀ s : State,
    (∀ o, (24 ≤ o ∨ o % 4 ≠ 0) → hostStep (.rdreg o) s = .refused (.reservedOffset o) ∧
      ∀ w, hostStep (.wrreg o w) s = .refused (.reservedOffset o)) ∧
    (s.running = none →
      (∀ a, s.ibufBytes ≤ a → hostStep (.rdibuf a) s = .fault (.noSuchAddress .ibuf a)) ∧
      (∀ a b bs, s.ibufBytes < a + (b :: bs).length →
        hostStep (.wribuf a (b :: bs)) s = .fault (.noSuchAddress .ibuf a)) ∧
      (∀ a, s.obufBytes ≤ a → hostStep (.rdobufByte a) s = .fault (.noSuchAddress .obuf a)) ∧
      (∀ a, a % 2 ≠ 0 → hostStep (.rdobufHalf a) s = .refused (.misalignedRead a)) ∧
      (∀ a, a % 2 = 0 → s.obufBytes ≤ a → hostStep (.rdobufHalf a) s = .fault (.noSuchAddress .obuf a)))

/-- R7, R50, R59, R60 (b): a `WRIBUF` goes on, every byte it names then reads as written, every other byte of `IBUF` and all
of `OBUF` read as before, and no register changes. And the host's byte read of `IBUF` gives the byte, so that after a
`WRIBUF` it gives what was written; nothing but the data given back changes (log entry 11). -/
def Obligations.WribufWritesItsBytes : Prop :=
  (∀ (s : State) (addr : Nat) (bytes : List Byte), s.running = none → addr + bytes.length ≤ s.ibufBytes →
    ∃ t, hostStep (.wribuf addr bytes) s = .next t ∧
      (∀ i (h : i < bytes.length), t.byteAt .ibuf (addr + i) = bytes[i] ∧
        hostStep (.rdibuf (addr + i)) t = .next { t with reads := .byte bytes[i] :: t.reads }) ∧
      (∀ a, (a < addr ∨ addr + bytes.length ≤ a) → t.byteAt .ibuf a = s.byteAt .ibuf a) ∧
      (∀ a, t.byteAt .obuf a = s.byteAt .obuf a) ∧
      t = { s with ibuf := t.ibuf }) ∧
  (∀ (s : State) (a : Nat), s.running = none → a < s.ibufBytes →
    hostStep (.rdibuf a) s = .next { s with reads := .byte (s.byteAt .ibuf a) :: s.reads })

/-- R52, R53: a 16-bit read of `OBUF` at an even address gives the two bytes that byte reads give, the lower address in bits
7:0. -/
def Obligations.ObufIsLittleEndian : Prop :=
  ∀ (s : State) (k : Nat), s.running = none → 2 * k + 1 < s.obufBytes →
    hostStep (.rdobufByte (2 * k)) s = .next { s with reads := .byte (s.byteAt .obuf (2 * k)) :: s.reads } ∧
    hostStep (.rdobufByte (2 * k + 1)) s = .next { s with reads := .byte (s.byteAt .obuf (2 * k + 1)) :: s.reads } ∧
    hostStep (.rdobufHalf (2 * k)) s =
      .next { s with reads := .half (s.byteAt .obuf (2 * k + 1) ++ s.byteAt .obuf (2 * k)) :: s.reads }

/-- R210, R32: hardware reset, in any state and at any time, and its frame. (The free values of the bytes after it, the count
of resets and the host's own fields are the model's, log entries 1, 5, 6 and 11.) -/
def Obligations.HardwareResetRestoresTheRegisters : Prop :=
  ∀ (s : State) (rest : List Event), s.schedule = .host .hreset :: rest →
    ∃ t, step s = .next t ∧
      t.carryI = 0#32 ∧ t.carryQ = 0#32 ∧ t.volf = 4096#16 ∧ t.statusWord = 0#32 ∧ t.ocount = 0#32 ∧
      (∀ a, t.byteAt .ibuf a = Config.unwrittenByte .ibuf (s.epoch + 1) a) ∧
      (∀ a, t.byteAt .obuf a = Config.unwrittenByte .obuf (s.epoch + 1) a) ∧
      t.ibufSize = s.ibufSize ∧ t.schedule = rest ∧ t.reads = s.reads

/-- R32: the values after hardware reset that the spec gives, in the state the machine starts in. -/
def Obligations.ResetState : Prop :=
  State.reset.carryI.toInt = 0 ∧ State.reset.carryQ.toInt = 0 ∧ State.reset.volf.toNat = 4096 ∧
  State.reset.statusWord = 0#32 ∧ State.reset.ocount.toNat = 0

/-- R33, R50, R24, R61, R23, R193: every move keeps the invariant: the carryover in its range, nothing stored outside the
memories, the memories in their canonical form, `OCOUNT` within `OBUF`, and `FAULT` set wherever `ERRCODE` is not `OK`. -/
def Obligations.EveryStepKeepsTheInvariant : Prop :=
  ∀ s t : State, s.Inv → step s = .next t → t.Inv

/-- R32, R33: the state after a hardware reset has the invariant, for every size of `IBUF` and every plan of the host. -/
def Obligations.StartHasTheInvariant : Prop :=
  State.reset.Inv ∧ ∀ (size : Config.BufferSize) (moves : List Event), (State.start size moves).Inv

/-- R33: wherever a carryover register is in its range, as the invariant says it is, its bits 31:11 equal bit 10, so that 11
bits hold it. -/
def Obligations.CarryoverFitsElevenBits : Prop :=
  ∀ s : State, ∀ i, 11 ≤ i → i < 32 →
    (InCarryRange s.carryI → s.carryI.getLsbD i = s.carryI.getLsbD 10) ∧
    (InCarryRange s.carryQ → s.carryQ.getLsbD i = s.carryQ.getLsbD 10) ∧
    (s.Inv → s.carryI.getLsbD i = s.carryI.getLsbD 10 ∧ s.carryQ.getLsbD i = s.carryQ.getLsbD 10)

/-- R8, R191, U1: only the host can stop the machine: a step that does not go on is a transaction that neither the table of
R59 nor, for a write to a read-only register, R27 allows (section 5 of 10_state.md, log entry 10). (That such a transaction
stops is the model's form of U1 and U6, log entries 8 and 9.) -/
def Obligations.OnlyTheHostStopsTheMachine : Prop :=
  ∀ s : State, (∀ t, step s ≠ .next t) ↔
    ∃ (tx : HostTx) (rest : List Event), s.schedule = .host tx :: rest ∧ tx.allowed s = false

/-- R33, R50, R23, R193: in every state that a run reaches, from any size of `IBUF` and under any plan of the host, the
invariant holds and `STATUS` reads one of the values that its fields allow. (The plan and the size are placed in the reset
state by `State.start`, log entries 1, 3 and 4; that a step keeps the invariant is `EveryStepKeepsTheInvariant`.) -/
def Obligations.ReachedStatesHaveTheInvariant : Prop :=
  ∀ s : State, Reachable s → s.Inv ∧ s.statusWord.toNat < 24 ∧ (s.errcode ≠ .ok → s.fault = true)
end

