-- ==== Sys2Proof/Laws/Float.lean ====
section
/-! SUPPORT. What the floating-point primitives do, said once: `rn32` is odd, monotonic, and leaves every value of the
grid as it is; the rest of the bounds of the datapath follow from these (R11, R12, R14). -/

namespace Sys2Proof.Machine

/-! ### `floorLog2` -/

theorem two_zpow_pos (e : Int) : (0 : Rat) < (2 : Rat) ^ e := zpow_pos (by norm_num) e

theorem two_pow_24 : ((2 ^ 24 : Int) : Rat) = (2 : Rat) ^ (24 : Int) := by norm_num

theorem two_pow_23 : ((2 ^ 23 : Int) : Rat) = (2 : Rat) ^ (23 : Int) := by norm_num

theorem two_zpow_mono {a b : Int} (h : a ≤ b) : (2 : Rat) ^ a ≤ (2 : Rat) ^ b :=
  zpow_le_zpow_right₀ (by norm_num) h

theorem floorLog2_spec {q : Rat} (hq : 0 < q) :
    (2 : Rat) ^ floorLog2 q ≤ q ∧ q < (2 : Rat) ^ (floorLog2 q + 1) := by
  have hnum : 0 < q.num := Rat.num_pos.mpr hq
  obtain ⟨n, hn⟩ := Int.eq_ofNat_of_zero_le hnum.le
  have hn0 : n ≠ 0 := by rintro rfl; simp [hn] at hnum
  have hd0 : q.den ≠ 0 := q.den_nz
  set a := Nat.log2 n with ha
  set b := Nat.log2 q.den with hb
  have ha1 : (2 : Rat) ^ a ≤ n := by exact_mod_cast Nat.log2_self_le hn0
  have ha2 : (n : Rat) < 2 ^ (a + 1) := by exact_mod_cast Nat.lt_log2_self
  have hb1 : (2 : Rat) ^ b ≤ q.den := by exact_mod_cast Nat.log2_self_le hd0
  have hb2 : (q.den : Rat) < 2 ^ (b + 1) := by exact_mod_cast Nat.lt_log2_self
  have hden : (0 : Rat) < q.den := by exact_mod_cast q.den_pos
  have hqe : q = n / q.den := by
    conv_lhs => rw [← Rat.num_div_den q]
    rw [hn]; simp
  have hlow : (2 : Rat) ^ ((a : Int) - b - 1) ≤ q := by
    rw [hqe, le_div_iff₀ hden, zpow_sub₀ two_ne_zero, zpow_sub₀ two_ne_zero, zpow_natCast, zpow_natCast, zpow_one]
    have h2b : (0 : Rat) < 2 ^ b := by positivity
    calc (2 : Rat) ^ a / 2 ^ b / 2 * q.den ≤ (2 : Rat) ^ a / 2 ^ b / 2 * 2 ^ (b + 1) := by gcongr
      _ = 2 ^ a := by rw [pow_succ]; field_simp
      _ ≤ n := ha1
  have hhigh : q < (2 : Rat) ^ ((a : Int) - b + 1) := by
    rw [hqe, div_lt_iff₀ hden, zpow_add₀ two_ne_zero, zpow_sub₀ two_ne_zero, zpow_natCast, zpow_natCast, zpow_one]
    have h2b : (0 : Rat) < 2 ^ b := by positivity
    calc (n : Rat) < 2 ^ (a + 1) := ha2
      _ = (2 : Rat) ^ a / 2 ^ b * 2 * 2 ^ b := by rw [pow_succ]; field_simp
      _ ≤ (2 : Rat) ^ a / 2 ^ b * 2 * q.den := by gcongr
  unfold floorLog2
  rw [hn, Int.natAbs_natCast, ← ha, ← hb]
  simp only
  split_ifs with h
  · exact ⟨h, hhigh⟩
  · exact ⟨hlow, by simpa using lt_of_not_ge h⟩

theorem floorLog2_lt_iff {q : Rat} (hq : 0 < q) (e : Int) : floorLog2 q < e ↔ q < (2 : Rat) ^ e := by
  obtain ⟨h1, h2⟩ := floorLog2_spec hq
  constructor
  · intro h
    exact h2.trans_le (two_zpow_mono (by omega))
  · intro h
    by_contra hc
    exact absurd (h.trans_le (two_zpow_mono (by omega))) (not_lt.mpr h1)

theorem floorLog2_mono {p q : Rat} (hp : 0 < p) (h : p ≤ q) : floorLog2 p ≤ floorLog2 q := by
  have := (floorLog2_lt_iff hp (floorLog2 q + 1)).mpr (h.trans_lt (floorLog2_spec (hp.trans_le h)).2)
  omega

/-! ### `roundHalfEven` -/

theorem roundHalfEven_near (n : Rat) : |(roundHalfEven n : Rat) - n| ≤ 1 / 2 := by
  have h1 := Int.floor_le n
  have h2 := Int.lt_floor_add_one n
  unfold roundHalfEven
  simp only
  split_ifs <;> rw [abs_le] <;> push_cast <;> constructor <;> linarith

@[simp] theorem roundHalfEven_intCast (k : Int) : roundHalfEven (k : Rat) = k := by
  simp [roundHalfEven]

theorem roundHalfEven_mono {m n : Rat} (h : m ≤ n) : roundHalfEven m ≤ roundHalfEven n := by
  have hm1 := Int.floor_le m
  have hm2 := Int.lt_floor_add_one m
  have hn1 := Int.floor_le n
  have hn2 := Int.lt_floor_add_one n
  have hf : ⌊m⌋ ≤ ⌊n⌋ := Int.floor_le_floor h
  rcases hf.eq_or_lt with he | hl
  · unfold roundHalfEven
    simp only [he] at hm1 hm2 ⊢
    split_ifs <;> first | omega | linarith
  · have h1 : roundHalfEven m ≤ ⌊m⌋ + 1 := by
      unfold roundHalfEven; simp only; split_ifs <;> omega
    have h2 : ⌊n⌋ ≤ roundHalfEven n := by
      unfold roundHalfEven; simp only; split_ifs <;> omega
    omega

theorem le_roundHalfEven {k : Int} {n : Rat} (h : (k : Rat) ≤ n) : k ≤ roundHalfEven n := by
  simpa using roundHalfEven_mono h

theorem roundHalfEven_le {k : Int} {n : Rat} (h : n ≤ (k : Rat)) : roundHalfEven n ≤ k := by
  simpa using roundHalfEven_mono h

/-! ### `rn32` -/

theorem ulpOf_pos (q : Rat) : 0 < ulpOf q := two_zpow_pos _

@[simp] theorem ulpOf_neg (q : Rat) : ulpOf (-q) = ulpOf q := by simp [ulpOf, roundExponent]

@[simp] theorem rn32_zero : rn32 0 = 0 := by simp [rn32]

theorem rn32_of_pos {q : Rat} (hq : 0 < q) : rn32 q = (roundHalfEven (q / ulpOf q) : Rat) * ulpOf q := by
  simp [rn32, hq.ne', not_lt.mpr hq.le, abs_of_pos hq]

theorem rn32_neg (q : Rat) : rn32 (-q) = -rn32 q := by
  rcases lt_trichotomy q 0 with h | rfl | h
  · simp [rn32, h, h.ne, not_lt.mpr h.le]
  · simp
  · simp [rn32, h, h.ne', not_lt.mpr h.le]

theorem rn32_nonneg {q : Rat} (hq : 0 ≤ q) : 0 ≤ rn32 q := by
  rcases hq.eq_or_lt with rfl | h
  · simp
  · rw [rn32_of_pos h]
    have : (0 : Int) ≤ roundHalfEven (q / ulpOf q) :=
      le_roundHalfEven (by simpa using div_nonneg h.le (ulpOf_pos q).le)
    exact mul_nonneg (by exact_mod_cast this) (ulpOf_pos q).le

/-- `rn32` rounds by at most half an ulp. -/
theorem rn32_near (q : Rat) : |rn32 q - q| ≤ ulpOf q / 2 := by
  have key : ∀ p : Rat, 0 < p → |rn32 p - p| ≤ ulpOf p / 2 := by
    intro p hp
    have hu := ulpOf_pos p
    rw [rn32_of_pos hp]
    have h := roundHalfEven_near (p / ulpOf p)
    calc |(roundHalfEven (p / ulpOf p) : Rat) * ulpOf p - p|
        = |((roundHalfEven (p / ulpOf p) : Rat) - p / ulpOf p) * ulpOf p| := by
          rw [sub_mul, div_mul_cancel₀ _ hu.ne']
      _ = |(roundHalfEven (p / ulpOf p) : Rat) - p / ulpOf p| * ulpOf p := by rw [abs_mul, abs_of_pos hu]
      _ ≤ 1 / 2 * ulpOf p := by gcongr
      _ = ulpOf p / 2 := by ring
  rcases lt_trichotomy q 0 with h | rfl | h
  · have := key (-q) (by linarith)
    rw [rn32_neg, ulpOf_neg, ← abs_neg] at this
    simpa [sub_eq_add_neg, add_comm] using this
  · simpa using (half_pos (ulpOf_pos 0)).le
  · exact key q h

/-- The exponent that a positive value is rounded at bounds the value from above, and from below where it is not the least
exponent. -/
theorem roundExponent_spec {q : Rat} (hq : 0 < q) :
    -126 ≤ roundExponent q ∧ q < (2 : Rat) ^ (roundExponent q + 1) ∧
      (-126 < roundExponent q → (2 : Rat) ^ roundExponent q ≤ q) := by
  obtain ⟨h1, h2⟩ := floorLog2_spec hq
  unfold roundExponent
  rw [abs_of_pos hq]
  refine ⟨le_max_right _ _, h2.trans_le (two_zpow_mono (by omega)), fun h => ?_⟩
  have : max (floorLog2 q) (-126) = floorLog2 q := by omega
  rwa [this]

theorem rn32_mono_pos {p q : Rat} (hp : 0 < p) (h : p ≤ q) : rn32 p ≤ rn32 q := by
  have hq := hp.trans_le h
  rw [rn32_of_pos hp, rn32_of_pos hq]
  have hE : roundExponent p ≤ roundExponent q := by
    unfold roundExponent
    rw [abs_of_pos hp, abs_of_pos hq]
    exact max_le_max (floorLog2_mono hp h) le_rfl
  rcases hE.eq_or_lt with he | hl
  · have hu : ulpOf p = ulpOf q := by simp [ulpOf, he]
    rw [hu]
    have hm : roundHalfEven (p / ulpOf q) ≤ roundHalfEven (q / ulpOf q) :=
      roundHalfEven_mono (div_le_div_of_nonneg_right h (ulpOf_pos q).le)
    have hm' : (roundHalfEven (p / ulpOf q) : Rat) ≤ roundHalfEven (q / ulpOf q) := by exact_mod_cast hm
    exact mul_le_mul_of_nonneg_right hm' (ulpOf_pos q).le
  · obtain ⟨hp1, hp2, -⟩ := roundExponent_spec hp
    obtain ⟨-, -, hq3⟩ := roundExponent_spec hq
    have hup : roundHalfEven (p / ulpOf p) ≤ 2 ^ 24 := by
      apply roundHalfEven_le
      rw [div_le_iff₀ (ulpOf_pos p)]
      rw [two_pow_24, ulpOf, ← zpow_add₀ two_ne_zero]
      exact hp2.le.trans (two_zpow_mono (by omega))
    have hlo : (2 ^ 23 : Int) ≤ roundHalfEven (q / ulpOf q) := by
      apply le_roundHalfEven
      rw [le_div_iff₀ (ulpOf_pos q)]
      rw [two_pow_23, ulpOf, ← zpow_add₀ two_ne_zero]
      exact (two_zpow_mono (by omega)).trans (hq3 (by omega))
    have hup' : (roundHalfEven (p / ulpOf p) : Rat) ≤ (2 : Rat) ^ (24 : Int) := by
      rw [← two_pow_24]; exact_mod_cast hup
    have hlo' : (2 : Rat) ^ (23 : Int) ≤ (roundHalfEven (q / ulpOf q) : Rat) := by
      rw [← two_pow_23]; exact_mod_cast hlo
    calc (roundHalfEven (p / ulpOf p) : Rat) * ulpOf p ≤ (2 : Rat) ^ (24 : Int) * ulpOf p :=
          mul_le_mul_of_nonneg_right hup' (ulpOf_pos p).le
      _ = (2 : Rat) ^ (24 + (roundExponent p - 23)) := by rw [ulpOf, ← zpow_add₀ two_ne_zero]
      _ ≤ (2 : Rat) ^ (23 + (roundExponent q - 23)) := two_zpow_mono (by omega)
      _ = (2 : Rat) ^ (23 : Int) * ulpOf q := by rw [ulpOf, ← zpow_add₀ two_ne_zero]
      _ ≤ (roundHalfEven (q / ulpOf q) : Rat) * ulpOf q := mul_le_mul_of_nonneg_right hlo' (ulpOf_pos q).le

/-- `rn32` is monotonic. -/
theorem rn32_mono {p q : Rat} (h : p ≤ q) : rn32 p ≤ rn32 q := by
  rcases lt_trichotomy p 0 with hp | rfl | hp
  · rcases lt_or_ge q 0 with hq | hq
    · have := rn32_mono_pos (p := -q) (q := -p) (by linarith) (by linarith)
      rw [rn32_neg, rn32_neg] at this
      linarith
    · have h1 := rn32_nonneg (q := -p) (by linarith)
      rw [rn32_neg] at h1
      linarith [rn32_nonneg hq]
  · simpa using rn32_nonneg h
  · exact rn32_mono_pos hp h

theorem rn32_nonpos {q : Rat} (hq : q ≤ 0) : rn32 q ≤ 0 := by simpa using rn32_mono hq

/-- Every value `m * 2^e` with `|m| <= 2^24` and `e >= -149` is left as it is. -/
theorem rn32_grid {m : Int} {e : Int} (hm : |m| ≤ 2 ^ 24) (he : -149 ≤ e) :
    rn32 ((m : Rat) * (2 : Rat) ^ e) = (m : Rat) * (2 : Rat) ^ e := by
  have key : ∀ m : Int, 0 < m → m ≤ 2 ^ 24 → rn32 ((m : Rat) * (2 : Rat) ^ e) = (m : Rat) * (2 : Rat) ^ e := by
    intro m h0 h1
    have hm0 : (0 : Rat) < (m : Rat) := by exact_mod_cast h0
    have hq : (0 : Rat) < (m : Rat) * (2 : Rat) ^ e := mul_pos hm0 (two_zpow_pos e)
    rw [rn32_of_pos hq]
    have hint : ∃ k : Int, (m : Rat) * (2 : Rat) ^ e / ulpOf ((m : Rat) * (2 : Rat) ^ e) = (k : Rat) := by
      set q := (m : Rat) * (2 : Rat) ^ e with hqd
      obtain ⟨hE1, -, hE3⟩ := roundExponent_spec hq
      rw [ulpOf]
      rcases lt_or_ge e (roundExponent q - 23) with hlt | hge
      · -- the ulp is coarser than 2^e: the value is the power of two 2^(e+24)
        have hle : (2 : Rat) ^ roundExponent q ≤ q := hE3 (by omega)
        have hup : q ≤ (2 : Rat) ^ (24 + e) := by
          rw [zpow_add₀ two_ne_zero]
          have : (m : Rat) ≤ (2 : Rat) ^ (24 : Int) := by
            rw [← two_pow_24]; exact_mod_cast h1
          exact mul_le_mul_of_nonneg_right this (two_zpow_pos e).le
        have hexp : roundExponent q = 24 + e := by
          have h2 : (2 : Rat) ^ roundExponent q ≤ (2 : Rat) ^ (24 + e) := hle.trans hup
          have := (zpow_le_zpow_iff_right₀ (by norm_num : (1 : Rat) < 2)).mp h2
          omega
        have hqe : q = (2 : Rat) ^ (24 + e) := le_antisymm hup (hexp ▸ hle)
        refine ⟨2 ^ 23, ?_⟩
        rw [hexp]
        conv_lhs => rw [hqe]
        rw [← zpow_sub₀ two_ne_zero]
        have : (24 + e - (24 + e - 23) : Int) = 23 := by ring
        rw [this]; norm_num
      · obtain ⟨d, hd⟩ := Int.eq_ofNat_of_zero_le (show 0 ≤ e - (roundExponent q - 23) by omega)
        refine ⟨m * 2 ^ d, ?_⟩
        rw [hqd, mul_div_assoc, ← zpow_sub₀ two_ne_zero]
        simp only [← hqd]
        rw [hd]
        push_cast
        rw [zpow_natCast]
    obtain ⟨k, hk⟩ := hint
    rw [hk, roundHalfEven_intCast, ← hk, div_mul_cancel₀ _ (ulpOf_pos _).ne']
  rcases lt_trichotomy m 0 with h | rfl | h
  · have h1 := key (-m) (by omega) (by rw [abs_of_neg h] at hm; exact hm)
    have h2 : ((-m : Int) : Rat) * (2 : Rat) ^ e = -((m : Rat) * (2 : Rat) ^ e) := by push_cast; ring
    rw [h2, rn32_neg] at h1
    linarith
  · simp
  · exact key m h (by rw [abs_of_pos h] at hm; exact hm)

/-- R14: an integer of magnitude at most 2^24 is left as it is. -/
theorem rn32_intCast {n : Int} (h : |n| ≤ 2 ^ 24) : rn32 (n : Rat) = n := by
  simpa using rn32_grid h (e := 0) (by norm_num)

theorem i2f_of_small {n : Int} (h : |n| ≤ 2 ^ 24) : i2f n = n := rn32_intCast h

theorem rn32_one : rn32 1 = 1 := by simpa using rn32_intCast (n := 1) (by norm_num)

/-- A bound by a value that `rn32` leaves as it is carries over to the rounded value. -/
theorem rn32_le_of_le {q b : Rat} (hb : rn32 b = b) (h : q ≤ b) : rn32 q ≤ b := hb ▸ rn32_mono h

theorem le_rn32_of_le {q b : Rat} (hb : rn32 b = b) (h : b ≤ q) : b ≤ rn32 q := by
  conv_lhs => rw [← hb]
  exact rn32_mono h

theorem abs_rn32_le {q b : Rat} (hb : rn32 b = b) (h : |q| ≤ b) : |rn32 q| ≤ b := by
  rw [abs_le] at h ⊢
  refine ⟨?_, rn32_le_of_le hb h.2⟩
  have := rn32_mono h.1
  rw [rn32_neg, hb] at this
  exact this

/-- The result of a rounding is a value of the grid. -/
theorem rn32_on_grid (q : Rat) : ∃ m e : Int, |m| ≤ 2 ^ 24 ∧ -149 ≤ e ∧ rn32 q = (m : Rat) * (2 : Rat) ^ e := by
  have key : ∀ p : Rat, 0 < p → ∃ m e : Int, |m| ≤ 2 ^ 24 ∧ -149 ≤ e ∧ rn32 p = (m : Rat) * (2 : Rat) ^ e := by
    intro p hp
    obtain ⟨h1, h2, -⟩ := roundExponent_spec hp
    refine ⟨roundHalfEven (p / ulpOf p), roundExponent p - 23, ?_, by omega, rn32_of_pos hp⟩
    have hlo : 0 ≤ roundHalfEven (p / ulpOf p) :=
      le_roundHalfEven (by simpa using div_nonneg hp.le (ulpOf_pos p).le)
    have hup : roundHalfEven (p / ulpOf p) ≤ 2 ^ 24 := by
      apply roundHalfEven_le
      rw [div_le_iff₀ (ulpOf_pos p)]
      rw [two_pow_24, ulpOf, ← zpow_add₀ two_ne_zero]
      exact h2.le.trans (two_zpow_mono (by omega))
    rw [abs_of_nonneg hlo]; exact hup
  rcases lt_trichotomy q 0 with h | rfl | h
  · obtain ⟨m, e, h1, h2, h3⟩ := key (-q) (by linarith)
    refine ⟨-m, e, by rwa [abs_neg], h2, ?_⟩
    rw [rn32_neg] at h3
    push_cast
    linarith
  · exact ⟨0, 0, by norm_num, by norm_num, by simp⟩
  · exact key q h

/-- Rounding a rounded value changes nothing. -/
@[simp] theorem rn32_idem (q : Rat) : rn32 (rn32 q) = rn32 q := by
  obtain ⟨m, e, h1, h2, h3⟩ := rn32_on_grid q
  rw [h3, rn32_grid h1 h2]

/-- Doubling commutes with rounding, but for values so small that the exponent is at its least. -/
theorem rn32_two_mul {q : Rat} (h : (2 : Rat) ^ (-126 : Int) ≤ |q|) : rn32 (2 * q) = 2 * rn32 q := by
  have key : ∀ p : Rat, 0 < p → (2 : Rat) ^ (-126 : Int) ≤ p → rn32 (2 * p) = 2 * rn32 p := by
    intro p hp hb
    have h2p : 0 < 2 * p := by linarith
    have hlog : floorLog2 (2 * p) = floorLog2 p + 1 := by
      obtain ⟨a1, a2⟩ := floorLog2_spec hp
      have b1 : floorLog2 (2 * p) < floorLog2 p + 2 := by
        rw [floorLog2_lt_iff h2p]
        have : (2 : Rat) ^ (floorLog2 p + 2) = 2 * (2 : Rat) ^ (floorLog2 p + 1) := by
          rw [show floorLog2 p + 2 = 1 + (floorLog2 p + 1) by ring, zpow_add₀ two_ne_zero, zpow_one]
        rw [this]; linarith
      have b2 : ¬ floorLog2 (2 * p) < floorLog2 p + 1 := by
        rw [floorLog2_lt_iff h2p, zpow_add₀ two_ne_zero, zpow_one]
        linarith
      omega
    have hfl : -126 ≤ floorLog2 p := by
      by_contra hc
      have := (floorLog2_lt_iff hp (-126)).mp (by omega)
      linarith
    have hu : ulpOf (2 * p) = 2 * ulpOf p := by
      simp only [ulpOf, roundExponent, abs_of_pos hp, abs_of_pos h2p, hlog]
      rw [show max (floorLog2 p + 1) (-126) - 23 = 1 + (max (floorLog2 p) (-126) - 23) by omega,
        zpow_add₀ two_ne_zero, zpow_one]
    rw [rn32_of_pos hp, rn32_of_pos h2p, hu, mul_div_mul_left _ _ two_ne_zero]
    ring
  rcases lt_trichotomy q 0 with hq | rfl | hq
  · have := key (-q) (by linarith) (by rwa [abs_of_neg hq] at h)
    rw [show 2 * -q = -(2 * q) by ring, rn32_neg, rn32_neg] at this
    linarith
  · simp
  · exact key q hq (by rwa [abs_of_pos hq] at h)

/-- Above the least exponents a rounding loses less than 2^-23 of a positive value. -/
theorem rn32_ge_of_normal {q : Rat} (h : 1 / 2 ^ 110 ≤ q) : (1 - 1 / 2 ^ 23) * q ≤ rn32 q := by
  have hq : 0 < q := lt_of_lt_of_le (by norm_num) h
  obtain ⟨h1, h2, h3⟩ := roundExponent_spec hq
  have hE : -126 < roundExponent q := by
    by_contra hc
    have h4 : (2 : Rat) ^ (roundExponent q + 1) ≤ (2 : Rat) ^ (-125 : Int) := two_zpow_mono (by omega)
    have h5 : (2 : Rat) ^ (-125 : Int) < 1 / 2 ^ 110 := by norm_num
    exact absurd (((h.trans_lt h2).trans_le h4).trans h5) (lt_irrefl _)
  have hu : ulpOf q = (2 : Rat) ^ roundExponent q / 2 ^ 23 := by
    rw [ulpOf, zpow_sub₀ two_ne_zero]; norm_num
  have hn := (abs_le.mp (rn32_near q)).1
  have := h3 hE
  rw [hu] at hn
  linarith

/-- A value that is a multiple of `2^e` is rounded to a multiple of `2^e`. -/
theorem rn32_multiple {e : Int} (he : -149 ≤ e) (k : Int) :
    ∃ z : Int, rn32 ((k : Rat) * (2 : Rat) ^ e) = (z : Rat) * (2 : Rat) ^ e := by
  have key : ∀ k : Int, 0 < k → ∃ z : Int, rn32 ((k : Rat) * (2 : Rat) ^ e) = (z : Rat) * (2 : Rat) ^ e := by
    intro k hk
    rcases le_or_gt k (2 ^ 24) with hs | hl
    · exact ⟨k, rn32_grid (by rwa [abs_of_pos hk]) he⟩
    · have hq : (0 : Rat) < (k : Rat) * (2 : Rat) ^ e := mul_pos (by exact_mod_cast hk) (two_zpow_pos e)
      obtain ⟨-, h2, -⟩ := roundExponent_spec hq
      have hexp : e + 24 < roundExponent ((k : Rat) * (2 : Rat) ^ e) + 1 := by
        have h3 : (2 : Rat) ^ (e + 24) < (2 : Rat) ^ (roundExponent ((k : Rat) * (2 : Rat) ^ e) + 1) := by
          refine lt_trans ?_ h2
          rw [add_comm, zpow_add₀ two_ne_zero, ← two_pow_24]
          exact mul_lt_mul_of_pos_right (by exact_mod_cast hl) (two_zpow_pos e)
        exact (zpow_lt_zpow_iff_right₀ (by norm_num : (1 : Rat) < 2)).mp h3
      obtain ⟨d, hd⟩ := Int.eq_ofNat_of_zero_le
        (show 0 ≤ roundExponent ((k : Rat) * (2 : Rat) ^ e) - 23 - e by omega)
      refine ⟨roundHalfEven ((k : Rat) * (2 : Rat) ^ e / ulpOf ((k : Rat) * (2 : Rat) ^ e)) * 2 ^ d, ?_⟩
      rw [rn32_of_pos hq]
      conv_lhs => rw [show ulpOf ((k : Rat) * (2 : Rat) ^ e) = (2 : Rat) ^ d * (2 : Rat) ^ e by
        rw [← zpow_natCast, ← zpow_add₀ two_ne_zero, ulpOf]; congr 1; omega]
      rw [show ulpOf ((k : Rat) * (2 : Rat) ^ e) = (2 : Rat) ^ d * (2 : Rat) ^ e by
        rw [← zpow_natCast, ← zpow_add₀ two_ne_zero, ulpOf]; congr 1; omega]
      push_cast
      ring
  rcases lt_trichotomy k 0 with h | rfl | h
  · obtain ⟨z, hz⟩ := key (-k) (by omega)
    refine ⟨-z, ?_⟩
    have h2 : ((-k : Int) : Rat) * (2 : Rat) ^ e = -((k : Rat) * (2 : Rat) ^ e) := by push_cast; ring
    rw [h2, rn32_neg] at hz
    push_cast
    linarith
  · exact ⟨0, by simp⟩
  · exact key k h

/-- A rounded value of magnitude at least `2^(e+23)` is a multiple of `2^e`. -/
theorem rounded_multiple {q : Rat} {e : Int} (hq : rn32 q = q) (h : (2 : Rat) ^ (e + 23) ≤ |q|) :
    ∃ z : Int, q = (z : Rat) * (2 : Rat) ^ e := by
  have key : ∀ p : Rat, 0 < p → rn32 p = p → (2 : Rat) ^ (e + 23) ≤ p → ∃ z : Int, p = (z : Rat) * (2 : Rat) ^ e := by
    intro p hp hr hb
    obtain ⟨-, h2, -⟩ := roundExponent_spec hp
    have hexp : e + 23 < roundExponent p + 1 :=
      (zpow_lt_zpow_iff_right₀ (by norm_num : (1 : Rat) < 2)).mp (hb.trans_lt h2)
    obtain ⟨d, hd⟩ := Int.eq_ofNat_of_zero_le (show 0 ≤ roundExponent p - 23 - e by omega)
    refine ⟨roundHalfEven (p / ulpOf p) * 2 ^ d, ?_⟩
    conv_lhs => rw [← hr, rn32_of_pos hp]
    have : ulpOf p = (2 : Rat) ^ d * (2 : Rat) ^ e := by
      rw [← zpow_natCast, ← zpow_add₀ two_ne_zero, ulpOf]; congr 1; omega
    push_cast
    rw [mul_assoc, ← this]
  rcases lt_trichotomy q 0 with hn | rfl | hp
  · obtain ⟨z, hz⟩ := key (-q) (by linarith) (by rw [rn32_neg, hq]) (by rwa [abs_of_neg hn] at h)
    exact ⟨-z, by push_cast; linarith⟩
  · exact ⟨0, by simp⟩
  · exact key q hp hq (by rwa [abs_of_pos hp] at h)

/-! ### The set F32 (R10) -/

/-- R10: every value of F32 is an integer of magnitude below 2^24 times a power of two from 2^-149 to 2^104. -/
theorem InF32.grid {q : Rat} (h : InF32 q) :
    ∃ m e : Int, |m| < 2 ^ 24 ∧ -149 ≤ e ∧ e ≤ 104 ∧ q = (m : Rat) * (2 : Rat) ^ e := by
  obtain ⟨w, hw, rfl⟩ := h
  set e := (w.extractLsb' 23 8).toNat with he
  set f := (w.extractLsb' 0 23).toNat with hf
  have hf' : f < 2 ^ 23 := (w.extractLsb' 0 23).isLt
  have he' : e < 255 := by
    have h1 : e < 2 ^ 8 := (w.extractLsb' 23 8).isLt
    have h2 : e ≠ 255 := fun hc => by
      have : w.extractLsb' 23 8 = 255#8 := BitVec.eq_of_toNat_eq hc
      simp [f32Finite, this] at hw
    omega
  have key : ∃ m k : Int, 0 ≤ m ∧ m < 2 ^ 24 ∧ -149 ≤ k ∧ k ≤ 104 ∧
      (if e = 0 then (2 : Rat) ^ (-126 : Int) * ((f : Rat) / 2 ^ 23)
        else (2 : Rat) ^ ((e : Int) - 127) * (1 + (f : Rat) / 2 ^ 23)) = (m : Rat) * (2 : Rat) ^ k := by
    split_ifs with h0
    · refine ⟨f, -149, by omega, by omega, by omega, by omega, ?_⟩
      rw [show (-149 : Int) = -126 - 23 by norm_num, zpow_sub₀ two_ne_zero]
      push_cast
      norm_num
      ring
    · refine ⟨2 ^ 23 + f, (e : Int) - 150, by omega, by omega, by omega, by omega, ?_⟩
      rw [show (e : Int) - 150 = (e : Int) - 127 + (-23) by ring, zpow_add₀ two_ne_zero]
      generalize (2 : Rat) ^ ((e : Int) - 127) = z
      push_cast
      norm_num
      ring
  obtain ⟨m, k, h0, h1, h2, h3, h4⟩ := key
  by_cases hs : w.getLsbD 31
  · refine ⟨-m, k, by rw [abs_neg, abs_of_nonneg h0]; exact h1, h2, h3, ?_⟩
    rw [f32, if_pos hs]
    simp only [← he, ← hf]
    rw [h4]; push_cast; ring
  · refine ⟨m, k, by rw [abs_of_nonneg h0]; exact h1, h2, h3, ?_⟩
    rw [f32, if_neg hs]
    exact h4

/-! ### The constants (R15), exactly -/

theorem pi32_eq : pi32 = 13176795 / 4194304 := by decide +kernel
theorem halfPi32_eq : halfPi32 = 13176795 / 8388608 := by decide +kernel
theorem polyC0_eq : polyC0 = -2748299 / 8388608 := by decide +kernel
theorem polyC1_eq : polyC1 = 2672849 / 16777216 := by decide +kernel
theorem polyC2_eq : polyC2 = -6240651 / 134217728 := by decide +kernel

/-! ### Truncation (R14) -/

theorem f2iTrunc_neg (v : Rat) : f2iTrunc (-v) = -f2iTrunc v := by
  unfold f2iTrunc
  rcases lt_trichotomy v 0 with h | rfl | h
  · rw [if_pos (by linarith), if_neg (by linarith), Int.floor_neg]
  · simp
  · rw [if_neg (by linarith), if_pos h.le, Int.ceil_neg]

/-- R14: the integer part is within one of the value, on the side of zero. -/
theorem f2iTrunc_spec (v : Rat) : |(f2iTrunc v : Rat)| ≤ |v| ∧ |v| < |(f2iTrunc v : Rat)| + 1 := by
  have key : ∀ w : Rat, 0 ≤ w → |(f2iTrunc w : Rat)| ≤ |w| ∧ |w| < |(f2iTrunc w : Rat)| + 1 := by
    intro w hw
    have h0 : (0 : Rat) ≤ (⌊w⌋ : Rat) := by exact_mod_cast Int.floor_nonneg.mpr hw
    rw [f2iTrunc, if_pos hw, abs_of_nonneg hw, abs_of_nonneg h0]
    exact ⟨Int.floor_le w, Int.lt_floor_add_one w⟩
  rcases le_total 0 v with h | h
  · exact key v h
  · have := key (-v) (by linarith)
    rw [f2iTrunc_neg] at this
    simpa using this

end Sys2Proof.Machine
end

