-- ==== Sys2Proof/Laws/State.lean ====
section
/-! SUPPORT. One lemma per field per update of the state, so that no proof unfolds an update; and what the derived views
(`busy`, the sizes, the byte at an address) read after one. -/

namespace Sys2Proof.Machine

variable (s : State)

/-! ### `State.accept` -/

@[simp] theorem State.accept_carryI (w : Word) : (s.accept w).carryI = s.carryI := rfl
@[simp] theorem State.accept_carryQ (w : Word) : (s.accept w).carryQ = s.carryQ := rfl
@[simp] theorem State.accept_volf (w : Word) : (s.accept w).volf = s.volf := rfl
@[simp] theorem State.accept_errcode (w : Word) : (s.accept w).errcode = s.errcode := rfl
@[simp] theorem State.accept_fault (w : Word) : (s.accept w).fault = s.fault := rfl
@[simp] theorem State.accept_ocount (w : Word) : (s.accept w).ocount = s.ocount := rfl
@[simp] theorem State.accept_running (w : Word) : (s.accept w).running = some w := rfl
@[simp] theorem State.accept_ibuf (w : Word) : (s.accept w).ibuf = s.ibuf := rfl
@[simp] theorem State.accept_obuf (w : Word) : (s.accept w).obuf = s.obuf := rfl
@[simp] theorem State.accept_ibufSize (w : Word) : (s.accept w).ibufSize = s.ibufSize := rfl
@[simp] theorem State.accept_epoch (w : Word) : (s.accept w).epoch = s.epoch := rfl
@[simp] theorem State.accept_schedule (w : Word) : (s.accept w).schedule = s.schedule := rfl
@[simp] theorem State.accept_reads (w : Word) : (s.accept w).reads = s.reads := rfl
@[simp] theorem State.accept_busy (w : Word) : (s.accept w).busy = true := rfl
@[simp] theorem State.accept_ibufBytes (w : Word) : (s.accept w).ibufBytes = s.ibufBytes := rfl
@[simp] theorem State.accept_obufBytes (w : Word) : (s.accept w).obufBytes = s.obufBytes := rfl
@[simp] theorem State.accept_byteAt (w : Word) : (s.accept w).byteAt = s.byteAt := rfl

/-! ### `State.complete` -/

@[simp] theorem State.complete_carryI : s.complete.carryI = s.carryI := rfl
@[simp] theorem State.complete_carryQ : s.complete.carryQ = s.carryQ := rfl
@[simp] theorem State.complete_volf : s.complete.volf = s.volf := rfl
@[simp] theorem State.complete_errcode : s.complete.errcode = .ok := rfl
@[simp] theorem State.complete_fault : s.complete.fault = s.fault := rfl
@[simp] theorem State.complete_ocount : s.complete.ocount = s.ocount := rfl
@[simp] theorem State.complete_running : s.complete.running = none := rfl
@[simp] theorem State.complete_ibuf : s.complete.ibuf = s.ibuf := rfl
@[simp] theorem State.complete_obuf : s.complete.obuf = s.obuf := rfl
@[simp] theorem State.complete_ibufSize : s.complete.ibufSize = s.ibufSize := rfl
@[simp] theorem State.complete_epoch : s.complete.epoch = s.epoch := rfl
@[simp] theorem State.complete_schedule : s.complete.schedule = s.schedule := rfl
@[simp] theorem State.complete_reads : s.complete.reads = s.reads := rfl
@[simp] theorem State.complete_busy : s.complete.busy = false := rfl
@[simp] theorem State.complete_ibufBytes : s.complete.ibufBytes = s.ibufBytes := rfl
@[simp] theorem State.complete_obufBytes : s.complete.obufBytes = s.obufBytes := rfl
@[simp] theorem State.complete_byteAt : s.complete.byteAt = s.byteAt := rfl

/-! ### `State.reject` -/

@[simp] theorem State.reject_carryI (c : ErrCode) : (s.reject c).carryI = s.carryI := rfl
@[simp] theorem State.reject_carryQ (c : ErrCode) : (s.reject c).carryQ = s.carryQ := rfl
@[simp] theorem State.reject_volf (c : ErrCode) : (s.reject c).volf = s.volf := rfl
@[simp] theorem State.reject_errcode (c : ErrCode) : (s.reject c).errcode = c := rfl
@[simp] theorem State.reject_fault (c : ErrCode) : (s.reject c).fault = true := rfl
@[simp] theorem State.reject_ocount (c : ErrCode) : (s.reject c).ocount = s.ocount := rfl
@[simp] theorem State.reject_running (c : ErrCode) : (s.reject c).running = none := rfl
@[simp] theorem State.reject_ibuf (c : ErrCode) : (s.reject c).ibuf = s.ibuf := rfl
@[simp] theorem State.reject_obuf (c : ErrCode) : (s.reject c).obuf = s.obuf := rfl
@[simp] theorem State.reject_ibufSize (c : ErrCode) : (s.reject c).ibufSize = s.ibufSize := rfl
@[simp] theorem State.reject_epoch (c : ErrCode) : (s.reject c).epoch = s.epoch := rfl
@[simp] theorem State.reject_schedule (c : ErrCode) : (s.reject c).schedule = s.schedule := rfl
@[simp] theorem State.reject_reads (c : ErrCode) : (s.reject c).reads = s.reads := rfl
@[simp] theorem State.reject_busy (c : ErrCode) : (s.reject c).busy = false := rfl
@[simp] theorem State.reject_ibufBytes (c : ErrCode) : (s.reject c).ibufBytes = s.ibufBytes := rfl
@[simp] theorem State.reject_obufBytes (c : ErrCode) : (s.reject c).obufBytes = s.obufBytes := rfl
@[simp] theorem State.reject_byteAt (c : ErrCode) : (s.reject c).byteAt = s.byteAt := rfl

/-! ### `State.setCarry` -/

@[simp] theorem State.setCarry_carryI (i q : Word) : (s.setCarry i q).carryI = i := rfl
@[simp] theorem State.setCarry_carryQ (i q : Word) : (s.setCarry i q).carryQ = q := rfl
@[simp] theorem State.setCarry_volf (i q : Word) : (s.setCarry i q).volf = s.volf := rfl
@[simp] theorem State.setCarry_errcode (i q : Word) : (s.setCarry i q).errcode = s.errcode := rfl
@[simp] theorem State.setCarry_fault (i q : Word) : (s.setCarry i q).fault = s.fault := rfl
@[simp] theorem State.setCarry_ocount (i q : Word) : (s.setCarry i q).ocount = s.ocount := rfl
@[simp] theorem State.setCarry_running (i q : Word) : (s.setCarry i q).running = s.running := rfl
@[simp] theorem State.setCarry_ibuf (i q : Word) : (s.setCarry i q).ibuf = s.ibuf := rfl
@[simp] theorem State.setCarry_obuf (i q : Word) : (s.setCarry i q).obuf = s.obuf := rfl
@[simp] theorem State.setCarry_ibufSize (i q : Word) : (s.setCarry i q).ibufSize = s.ibufSize := rfl
@[simp] theorem State.setCarry_epoch (i q : Word) : (s.setCarry i q).epoch = s.epoch := rfl
@[simp] theorem State.setCarry_schedule (i q : Word) : (s.setCarry i q).schedule = s.schedule := rfl
@[simp] theorem State.setCarry_reads (i q : Word) : (s.setCarry i q).reads = s.reads := rfl
@[simp] theorem State.setCarry_busy (i q : Word) : (s.setCarry i q).busy = s.busy := rfl
@[simp] theorem State.setCarry_ibufBytes (i q : Word) : (s.setCarry i q).ibufBytes = s.ibufBytes := rfl
@[simp] theorem State.setCarry_obufBytes (i q : Word) : (s.setCarry i q).obufBytes = s.obufBytes := rfl
@[simp] theorem State.setCarry_byteAt (i q : Word) : (s.setCarry i q).byteAt = s.byteAt := rfl

/-! ### `State.setVolf` -/

@[simp] theorem State.setVolf_carryI (f : BitVec 16) : (s.setVolf f).carryI = s.carryI := rfl
@[simp] theorem State.setVolf_carryQ (f : BitVec 16) : (s.setVolf f).carryQ = s.carryQ := rfl
@[simp] theorem State.setVolf_volf (f : BitVec 16) : (s.setVolf f).volf = f := rfl
@[simp] theorem State.setVolf_errcode (f : BitVec 16) : (s.setVolf f).errcode = s.errcode := rfl
@[simp] theorem State.setVolf_fault (f : BitVec 16) : (s.setVolf f).fault = s.fault := rfl
@[simp] theorem State.setVolf_ocount (f : BitVec 16) : (s.setVolf f).ocount = s.ocount := rfl
@[simp] theorem State.setVolf_running (f : BitVec 16) : (s.setVolf f).running = s.running := rfl
@[simp] theorem State.setVolf_ibuf (f : BitVec 16) : (s.setVolf f).ibuf = s.ibuf := rfl
@[simp] theorem State.setVolf_obuf (f : BitVec 16) : (s.setVolf f).obuf = s.obuf := rfl
@[simp] theorem State.setVolf_ibufSize (f : BitVec 16) : (s.setVolf f).ibufSize = s.ibufSize := rfl
@[simp] theorem State.setVolf_epoch (f : BitVec 16) : (s.setVolf f).epoch = s.epoch := rfl
@[simp] theorem State.setVolf_schedule (f : BitVec 16) : (s.setVolf f).schedule = s.schedule := rfl
@[simp] theorem State.setVolf_reads (f : BitVec 16) : (s.setVolf f).reads = s.reads := rfl
@[simp] theorem State.setVolf_busy (f : BitVec 16) : (s.setVolf f).busy = s.busy := rfl
@[simp] theorem State.setVolf_ibufBytes (f : BitVec 16) : (s.setVolf f).ibufBytes = s.ibufBytes := rfl
@[simp] theorem State.setVolf_obufBytes (f : BitVec 16) : (s.setVolf f).obufBytes = s.obufBytes := rfl
@[simp] theorem State.setVolf_byteAt (f : BitVec 16) : (s.setVolf f).byteAt = s.byteAt := rfl

/-! ### `State.setOcount` -/

@[simp] theorem State.setOcount_carryI (n : Word) : (s.setOcount n).carryI = s.carryI := rfl
@[simp] theorem State.setOcount_carryQ (n : Word) : (s.setOcount n).carryQ = s.carryQ := rfl
@[simp] theorem State.setOcount_volf (n : Word) : (s.setOcount n).volf = s.volf := rfl
@[simp] theorem State.setOcount_errcode (n : Word) : (s.setOcount n).errcode = s.errcode := rfl
@[simp] theorem State.setOcount_fault (n : Word) : (s.setOcount n).fault = s.fault := rfl
@[simp] theorem State.setOcount_ocount (n : Word) : (s.setOcount n).ocount = n := rfl
@[simp] theorem State.setOcount_running (n : Word) : (s.setOcount n).running = s.running := rfl
@[simp] theorem State.setOcount_ibuf (n : Word) : (s.setOcount n).ibuf = s.ibuf := rfl
@[simp] theorem State.setOcount_obuf (n : Word) : (s.setOcount n).obuf = s.obuf := rfl
@[simp] theorem State.setOcount_ibufSize (n : Word) : (s.setOcount n).ibufSize = s.ibufSize := rfl
@[simp] theorem State.setOcount_epoch (n : Word) : (s.setOcount n).epoch = s.epoch := rfl
@[simp] theorem State.setOcount_schedule (n : Word) : (s.setOcount n).schedule = s.schedule := rfl
@[simp] theorem State.setOcount_reads (n : Word) : (s.setOcount n).reads = s.reads := rfl
@[simp] theorem State.setOcount_busy (n : Word) : (s.setOcount n).busy = s.busy := rfl
@[simp] theorem State.setOcount_ibufBytes (n : Word) : (s.setOcount n).ibufBytes = s.ibufBytes := rfl
@[simp] theorem State.setOcount_obufBytes (n : Word) : (s.setOcount n).obufBytes = s.obufBytes := rfl
@[simp] theorem State.setOcount_byteAt (n : Word) : (s.setOcount n).byteAt = s.byteAt := rfl

/-! ### `State.setObuf` -/

@[simp] theorem State.setObuf_carryI (m : Memory) : (s.setObuf m).carryI = s.carryI := rfl
@[simp] theorem State.setObuf_carryQ (m : Memory) : (s.setObuf m).carryQ = s.carryQ := rfl
@[simp] theorem State.setObuf_volf (m : Memory) : (s.setObuf m).volf = s.volf := rfl
@[simp] theorem State.setObuf_errcode (m : Memory) : (s.setObuf m).errcode = s.errcode := rfl
@[simp] theorem State.setObuf_fault (m : Memory) : (s.setObuf m).fault = s.fault := rfl
@[simp] theorem State.setObuf_ocount (m : Memory) : (s.setObuf m).ocount = s.ocount := rfl
@[simp] theorem State.setObuf_running (m : Memory) : (s.setObuf m).running = s.running := rfl
@[simp] theorem State.setObuf_ibuf (m : Memory) : (s.setObuf m).ibuf = s.ibuf := rfl
@[simp] theorem State.setObuf_obuf (m : Memory) : (s.setObuf m).obuf = m := rfl
@[simp] theorem State.setObuf_ibufSize (m : Memory) : (s.setObuf m).ibufSize = s.ibufSize := rfl
@[simp] theorem State.setObuf_epoch (m : Memory) : (s.setObuf m).epoch = s.epoch := rfl
@[simp] theorem State.setObuf_schedule (m : Memory) : (s.setObuf m).schedule = s.schedule := rfl
@[simp] theorem State.setObuf_reads (m : Memory) : (s.setObuf m).reads = s.reads := rfl
@[simp] theorem State.setObuf_busy (m : Memory) : (s.setObuf m).busy = s.busy := rfl
@[simp] theorem State.setObuf_ibufBytes (m : Memory) : (s.setObuf m).ibufBytes = s.ibufBytes := rfl
@[simp] theorem State.setObuf_obufBytes (m : Memory) : (s.setObuf m).obufBytes = s.obufBytes := rfl
@[simp] theorem State.setObuf_byteAt_ibuf (m : Memory) : (s.setObuf m).byteAt .ibuf = s.byteAt .ibuf := rfl

/-! ### `State.setIbuf` -/

@[simp] theorem State.setIbuf_carryI (m : Memory) : (s.setIbuf m).carryI = s.carryI := rfl
@[simp] theorem State.setIbuf_carryQ (m : Memory) : (s.setIbuf m).carryQ = s.carryQ := rfl
@[simp] theorem State.setIbuf_volf (m : Memory) : (s.setIbuf m).volf = s.volf := rfl
@[simp] theorem State.setIbuf_errcode (m : Memory) : (s.setIbuf m).errcode = s.errcode := rfl
@[simp] theorem State.setIbuf_fault (m : Memory) : (s.setIbuf m).fault = s.fault := rfl
@[simp] theorem State.setIbuf_ocount (m : Memory) : (s.setIbuf m).ocount = s.ocount := rfl
@[simp] theorem State.setIbuf_running (m : Memory) : (s.setIbuf m).running = s.running := rfl
@[simp] theorem State.setIbuf_ibuf (m : Memory) : (s.setIbuf m).ibuf = m := rfl
@[simp] theorem State.setIbuf_obuf (m : Memory) : (s.setIbuf m).obuf = s.obuf := rfl
@[simp] theorem State.setIbuf_ibufSize (m : Memory) : (s.setIbuf m).ibufSize = s.ibufSize := rfl
@[simp] theorem State.setIbuf_epoch (m : Memory) : (s.setIbuf m).epoch = s.epoch := rfl
@[simp] theorem State.setIbuf_schedule (m : Memory) : (s.setIbuf m).schedule = s.schedule := rfl
@[simp] theorem State.setIbuf_reads (m : Memory) : (s.setIbuf m).reads = s.reads := rfl
@[simp] theorem State.setIbuf_busy (m : Memory) : (s.setIbuf m).busy = s.busy := rfl
@[simp] theorem State.setIbuf_ibufBytes (m : Memory) : (s.setIbuf m).ibufBytes = s.ibufBytes := rfl
@[simp] theorem State.setIbuf_obufBytes (m : Memory) : (s.setIbuf m).obufBytes = s.obufBytes := rfl
@[simp] theorem State.setIbuf_byteAt_obuf (m : Memory) : (s.setIbuf m).byteAt .obuf = s.byteAt .obuf := rfl

/-! ### `State.observe` -/

@[simp] theorem State.observe_carryI (d : ReadData) : (s.observe d).carryI = s.carryI := rfl
@[simp] theorem State.observe_carryQ (d : ReadData) : (s.observe d).carryQ = s.carryQ := rfl
@[simp] theorem State.observe_volf (d : ReadData) : (s.observe d).volf = s.volf := rfl
@[simp] theorem State.observe_errcode (d : ReadData) : (s.observe d).errcode = s.errcode := rfl
@[simp] theorem State.observe_fault (d : ReadData) : (s.observe d).fault = s.fault := rfl
@[simp] theorem State.observe_ocount (d : ReadData) : (s.observe d).ocount = s.ocount := rfl
@[simp] theorem State.observe_running (d : ReadData) : (s.observe d).running = s.running := rfl
@[simp] theorem State.observe_ibuf (d : ReadData) : (s.observe d).ibuf = s.ibuf := rfl
@[simp] theorem State.observe_obuf (d : ReadData) : (s.observe d).obuf = s.obuf := rfl
@[simp] theorem State.observe_ibufSize (d : ReadData) : (s.observe d).ibufSize = s.ibufSize := rfl
@[simp] theorem State.observe_epoch (d : ReadData) : (s.observe d).epoch = s.epoch := rfl
@[simp] theorem State.observe_schedule (d : ReadData) : (s.observe d).schedule = s.schedule := rfl
@[simp] theorem State.observe_reads (d : ReadData) : (s.observe d).reads = d :: s.reads := rfl
@[simp] theorem State.observe_busy (d : ReadData) : (s.observe d).busy = s.busy := rfl
@[simp] theorem State.observe_ibufBytes (d : ReadData) : (s.observe d).ibufBytes = s.ibufBytes := rfl
@[simp] theorem State.observe_obufBytes (d : ReadData) : (s.observe d).obufBytes = s.obufBytes := rfl
@[simp] theorem State.observe_byteAt (d : ReadData) : (s.observe d).byteAt = s.byteAt := rfl

/-! ### `State.setSchedule` -/

@[simp] theorem State.setSchedule_carryI (l : List Event) : (s.setSchedule l).carryI = s.carryI := rfl
@[simp] theorem State.setSchedule_carryQ (l : List Event) : (s.setSchedule l).carryQ = s.carryQ := rfl
@[simp] theorem State.setSchedule_volf (l : List Event) : (s.setSchedule l).volf = s.volf := rfl
@[simp] theorem State.setSchedule_errcode (l : List Event) : (s.setSchedule l).errcode = s.errcode := rfl
@[simp] theorem State.setSchedule_fault (l : List Event) : (s.setSchedule l).fault = s.fault := rfl
@[simp] theorem State.setSchedule_ocount (l : List Event) : (s.setSchedule l).ocount = s.ocount := rfl
@[simp] theorem State.setSchedule_running (l : List Event) : (s.setSchedule l).running = s.running := rfl
@[simp] theorem State.setSchedule_ibuf (l : List Event) : (s.setSchedule l).ibuf = s.ibuf := rfl
@[simp] theorem State.setSchedule_obuf (l : List Event) : (s.setSchedule l).obuf = s.obuf := rfl
@[simp] theorem State.setSchedule_ibufSize (l : List Event) : (s.setSchedule l).ibufSize = s.ibufSize := rfl
@[simp] theorem State.setSchedule_epoch (l : List Event) : (s.setSchedule l).epoch = s.epoch := rfl
@[simp] theorem State.setSchedule_schedule (l : List Event) : (s.setSchedule l).schedule = l := rfl
@[simp] theorem State.setSchedule_reads (l : List Event) : (s.setSchedule l).reads = s.reads := rfl
@[simp] theorem State.setSchedule_busy (l : List Event) : (s.setSchedule l).busy = s.busy := rfl
@[simp] theorem State.setSchedule_ibufBytes (l : List Event) : (s.setSchedule l).ibufBytes = s.ibufBytes := rfl
@[simp] theorem State.setSchedule_obufBytes (l : List Event) : (s.setSchedule l).obufBytes = s.obufBytes := rfl
@[simp] theorem State.setSchedule_byteAt (l : List Event) : (s.setSchedule l).byteAt = s.byteAt := rfl

/-! ### `State.hardwareReset` -/

@[simp] theorem State.hardwareReset_carryI : s.hardwareReset.carryI = 0#32 := rfl
@[simp] theorem State.hardwareReset_carryQ : s.hardwareReset.carryQ = 0#32 := rfl
@[simp] theorem State.hardwareReset_volf : s.hardwareReset.volf = Config.defaultFactor := rfl
@[simp] theorem State.hardwareReset_errcode : s.hardwareReset.errcode = .ok := rfl
@[simp] theorem State.hardwareReset_fault : s.hardwareReset.fault = false := rfl
@[simp] theorem State.hardwareReset_ocount : s.hardwareReset.ocount = 0#32 := rfl
@[simp] theorem State.hardwareReset_running : s.hardwareReset.running = none := rfl
@[simp] theorem State.hardwareReset_ibuf : s.hardwareReset.ibuf = [] := rfl
@[simp] theorem State.hardwareReset_obuf : s.hardwareReset.obuf = [] := rfl
@[simp] theorem State.hardwareReset_ibufSize : s.hardwareReset.ibufSize = s.ibufSize := rfl
@[simp] theorem State.hardwareReset_epoch : s.hardwareReset.epoch = s.epoch + 1 := rfl
@[simp] theorem State.hardwareReset_schedule : s.hardwareReset.schedule = s.schedule := rfl
@[simp] theorem State.hardwareReset_reads : s.hardwareReset.reads = s.reads := rfl
@[simp] theorem State.hardwareReset_busy : s.hardwareReset.busy = false := rfl
@[simp] theorem State.hardwareReset_ibufBytes : s.hardwareReset.ibufBytes = s.ibufBytes := rfl
@[simp] theorem State.hardwareReset_obufBytes : s.hardwareReset.obufBytes = s.obufBytes := rfl

/-! ### `STATUS` -/

/-- `BUSY` is 1 exactly while a command is in flight (R23). -/
theorem State.busy_iff : s.busy = true ↔ ∃ w, s.running = some w := by
  simp [State.busy, Option.isSome_iff_exists]

theorem State.not_busy_iff : s.busy = false ↔ s.running = none := by
  simp [State.busy]

end Sys2Proof.Machine
end

