-- ==== Sys2Proof/Laws/Memory.lean ====
section
/-! SUPPORT. The laws of memory: every operation keeps the canonical form, a read after a write gives what was written,
and a write leaves every other byte alone; and the loop `forTo`. -/

namespace Sys2Proof.Machine

open Sys2Proof.Config (Space)

/-! ### Loops -/

section Loops

variable {σ : Type}

@[simp] theorem forTo_zero (body : Nat → σ → σ) (x : σ) : forTo 0 body x = x := rfl

@[simp] theorem forTo_succ (n : Nat) (body : Nat → σ → σ) (x : σ) :
    forTo (n + 1) body x = body n (forTo n body x) := rfl

/-- A property that holds at the start and that every turn keeps holds at the end. -/
theorem forTo_induct {P : σ → Prop} {body : Nat → σ → σ} {x : σ} (n : Nat) (h0 : P x)
    (hs : ∀ i y, i < n → P y → P (body i y)) : P (forTo n body x) := by
  induction n with
  | zero => exact h0
  | succ n ih => exact hs n _ (by omega) (ih fun i y hi => hs i y (by omega))

/-- Two bodies that agree on the turns run leave the same state. -/
theorem forTo_congr {f g : Nat → σ → σ} {x : σ} (n : Nat) (h : ∀ i y, i < n → f i y = g i y) :
    forTo n f x = forTo n g x := by
  induction n with
  | zero => rfl
  | succ n ih => rw [forTo_succ, forTo_succ, ih fun i y hi => h i y (by omega), h n _ (by omega)]

/-- A loop of `m + n` turns is one of `m` and then one of `n`, counted on from `m`. -/
theorem forTo_add (m n : Nat) (body : Nat → σ → σ) (x : σ) :
    forTo (m + n) body x = forTo n (fun i => body (m + i)) (forTo m body x) := by
  induction n with
  | zero => rfl
  | succ n ih => rw [← Nat.add_assoc, forTo_succ, ih, forTo_succ]

end Loops

/-! ### The canonical form -/

theorem Memory.wf_cons (c : Host.Cell) (m : Memory) :
    Memory.wf (c :: m) = true ↔ (∀ d ∈ m.head?, c.1 < d.1) ∧ Memory.wf m = true := by
  cases m with
  | nil => simp [Memory.wf]
  | cons d m => simp [Memory.wf]

theorem Memory.wf_tail {c : Host.Cell} {m : Memory} (h : Memory.wf (c :: m) = true) : Memory.wf m = true :=
  ((Memory.wf_cons c m).mp h).2

theorem Memory.head?_set (m : Memory) (addr : Nat) (b : Byte) :
    ∀ d ∈ (m.set addr b).head?, d.1 = addr ∨ ∃ e ∈ m.head?, d.1 = e.1 := by
  cases m with
  | nil => simp [Memory.set]
  | cons c m =>
    intro d hd
    unfold Memory.set at hd
    split_ifs at hd <;> simp only [List.head?_cons, Option.mem_def, Option.some.injEq] at hd <;> subst hd
    · exact Or.inl rfl
    · exact Or.inl rfl
    · exact Or.inr ⟨c, rfl, rfl⟩

theorem Memory.set_wf {m : Memory} (h : m.wf = true) (addr : Nat) (b : Byte) : (m.set addr b).wf = true := by
  induction m with
  | nil => rfl
  | cons c m ih =>
    obtain ⟨h1, h2⟩ := (Memory.wf_cons c m).mp h
    unfold Memory.set
    split_ifs with hlt heq
    · exact (Memory.wf_cons _ _).mpr ⟨by simpa using hlt, h⟩
    · exact (Memory.wf_cons _ _).mpr ⟨by simpa [heq] using h1, h2⟩
    · refine (Memory.wf_cons _ _).mpr ⟨fun d hd => ?_, ih h2⟩
      rcases Memory.head?_set m addr b d hd with hd' | ⟨e, he, hd'⟩
      · omega
      · rw [hd']; exact h1 e he

theorem Memory.write_wf {m : Memory} (h : m.wf = true) (addr n v : Nat) : (m.write addr n v).wf = true := by
  induction n generalizing m addr v with
  | zero => exact h
  | succ n ih => exact ih (Memory.set_wf h _ _) _ _

theorem Memory.writeBytes_wf {m : Memory} (h : m.wf = true) (addr : Nat) (bs : List Byte) :
    (m.writeBytes addr bs).wf = true := by
  induction bs generalizing m addr with
  | nil => exact h
  | cons b bs ih => exact ih (Memory.set_wf h _ _) _

/-! ### Reading after writing -/

theorem Memory.get?_set (m : Memory) (addr a : Nat) (b : Byte) :
    (m.set addr b).get? a = if a = addr then some b else m.get? a := by
  induction m with
  | nil => simp only [Memory.set, Memory.get?, eq_comm]
  | cons c m ih =>
    rcases lt_trichotomy addr c.1 with h | h | h
    · simp only [Memory.set, if_pos h, Memory.get?, eq_comm]
    · subst h
      rcases eq_or_ne c.1 a with ha | ha
      · simp [Memory.set, Memory.get?, ha]
      · simp [Memory.set, Memory.get?, ha, ha.symm]
    · have h1 : ¬ addr < c.1 := by omega
      have h2 : addr ≠ c.1 := by omega
      rcases eq_or_ne c.1 a with ha | ha
      · subst ha
        simp [Memory.set, h1, h2, Memory.get?, Ne.symm h2]
      · simp [Memory.set, h1, h2, Memory.get?, ha, ih]

/-- A write of `n` bytes leaves every byte outside them alone. -/
theorem Memory.get?_write_outside (m : Memory) (addr n v a : Nat) (h : a < addr ∨ addr + n ≤ a) :
    (m.write addr n v).get? a = m.get? a := by
  induction n generalizing m addr v with
  | zero => rfl
  | succ n ih =>
    rw [Memory.write, ih _ _ _ (by omega), Memory.get?_set, if_neg (by omega)]

/-- The byte a write of `n` bytes leaves at its `i`-th address: bits `8i+7 : 8i` of the value (R6). -/
theorem Memory.get?_write_inside (m : Memory) (addr n v i : Nat) (h : i < n) :
    (m.write addr n v).get? (addr + i) = some (BitVec.ofNat 8 (v / 256 ^ i)) := by
  induction n generalizing m addr v i with
  | zero => omega
  | succ n ih =>
    rw [Memory.write]
    cases i with
    | zero => rw [Memory.get?_write_outside _ _ _ _ _ (by omega), Memory.get?_set]; simp
    | succ i =>
      rw [show addr + (i + 1) = addr + 1 + i by omega, ih _ _ _ _ (by omega), Nat.div_div_eq_div_mul, pow_succ']

theorem Memory.get?_writeBytes_outside (m : Memory) (addr a : Nat) (bs : List Byte)
    (h : a < addr ∨ addr + bs.length ≤ a) : (m.writeBytes addr bs).get? a = m.get? a := by
  induction bs generalizing m addr with
  | nil => rfl
  | cons b bs ih =>
    simp only [List.length_cons] at h
    rw [Memory.writeBytes, ih _ _ (by omega), Memory.get?_set, if_neg (by omega)]

theorem Memory.get?_writeBytes_inside (m : Memory) (addr i : Nat) (bs : List Byte) (h : i < bs.length) :
    (m.writeBytes addr bs).get? (addr + i) = some bs[i] := by
  induction bs generalizing m addr i with
  | nil => simp at h
  | cons b bs ih =>
    rw [Memory.writeBytes]
    cases i with
    | zero =>
      rw [Memory.get?_writeBytes_outside _ _ _ _ (by omega), Memory.get?_set]; simp
    | succ i =>
      rw [show addr + (i + 1) = addr + 1 + i by omega, ih _ _ _ (by simpa using h)]
      simp

/-! ### Which addresses are listed -/

theorem Memory.set_within {m : Memory} {size addr : Nat} (h : m.Within size) (ha : addr < size) (b : Byte) :
    (m.set addr b).Within size := by
  induction m with
  | nil => intro c hc; simp [Memory.set] at hc; simpa [hc] using ha
  | cons d m ih =>
    have hd : d.1 < size := h d (by simp)
    have hm : Memory.Within m size := fun c hc => h c (by simp [hc])
    intro c hc
    unfold Memory.set at hc
    split_ifs at hc
    · rcases List.mem_cons.mp hc with rfl | hc
      · exact ha
      · exact h c hc
    · rcases List.mem_cons.mp hc with rfl | hc
      · exact ha
      · exact hm c hc
    · rcases List.mem_cons.mp hc with rfl | hc
      · exact hd
      · exact ih hm c hc

theorem Memory.write_within {m : Memory} {size addr n : Nat} (h : m.Within size) (ha : addr + n ≤ size) (v : Nat) :
    (m.write addr n v).Within size := by
  induction n generalizing m addr v with
  | zero => exact h
  | succ n ih => exact ih (Memory.set_within h (by omega) _) (by omega) _

theorem Memory.writeBytes_within {m : Memory} {size addr : Nat} {bs : List Byte} (h : m.Within size)
    (ha : addr + bs.length ≤ size) : (m.writeBytes addr bs).Within size := by
  induction bs generalizing m addr with
  | nil => exact h
  | cons b bs ih =>
    simp only [List.length_cons] at ha
    exact ih (Memory.set_within h (by omega) _) (by omega)

/-! ### Reads through the state -/

theorem State.byteAt_obuf (s : State) (a : Nat) :
    s.byteAt .obuf a = (s.obuf.get? a).getD (Config.unwrittenByte .obuf s.epoch a) := rfl

theorem State.byteAt_ibuf (s : State) (a : Nat) :
    s.byteAt .ibuf a = (s.ibuf.get? a).getD (Config.unwrittenByte .ibuf s.epoch a) := rfl

/-- A 16-bit value stored with `MemWrite(…, addr, 2, v)` is read back whole (R6, R53). -/
theorem memRead_write_two (m : Memory) (addr : Nat) (v : Pcm) (byteAt : Nat → Byte)
    (h : ∀ i, i < 2 → some (byteAt (addr + i)) = (m.write addr 2 v.toNat).get? (addr + i)) :
    BitVec.ofNat 16 (memRead byteAt addr 2) = v := by
  have h0 := h 0 (by omega)
  have h1 := h 1 (by omega)
  rw [Memory.get?_write_inside _ _ _ _ _ (by omega)] at h0 h1
  simp only [Nat.add_zero, pow_zero, Nat.div_one, pow_one, Option.some.injEq] at h0 h1
  apply BitVec.eq_of_toNat_eq
  have hv := v.isLt
  simp only [memRead, h0, h1, BitVec.toNat_ofNat]
  omega

end Sys2Proof.Machine
end

