-- ==== Sys2Proof/Laws/Datapath.lean ====
section
/-! SUPPORT. What the units of the datapath do, said once: their ranges, and `BLOCK` in the closed form of R116 and
R121. -/

namespace Sys2Proof.Machine

/-! ### Deinterleaver and decimator stage 1 -/

/-- R100: the conversion subtracts 128. -/
theorem sconv_eq (b : Byte) : sconv b = (b.toNat : Int) - 128 := by
  revert b; decide

/-- R104. -/
theorem sconv_range (b : Byte) : -128 ≤ sconv b ∧ sconv b ≤ 127 := by
  have := b.isLt
  rw [sconv_eq]; omega

theorem dec1_eq (f : Nat → Int) : dec1 f = f 0 + f 1 + f 2 + f 3 + f 4 + f 5 + f 6 + f 7 := by
  simp [dec1]

theorem dec1_congr {f g : Nat → Int} (h : ∀ j, j < 8 → f j = g j) : dec1 f = dec1 g :=
  forTo_congr 8 fun j sum hj => by rw [h j hj]

/-- R112. -/
theorem decimate_range (byteAt : Nat → Byte) (k t : Nat) :
    (-1024 ≤ (decimate byteAt k t).i ∧ (decimate byteAt k t).i ≤ 1016) ∧
      (-1024 ≤ (decimate byteAt k t).q ∧ (decimate byteAt k t).q ≤ 1016) := by
  constructor
  · rw [show (decimate byteAt k t).i = dec1 (deintI byteAt (groupBase k t)) from rfl, dec1_eq]
    have h := fun j => sconv_range (byteAt (inPhaseAddr (groupBase k t) j))
    have h0 := h 0; have h1 := h 1; have h2 := h 2; have h3 := h 3
    have h4 := h 4; have h5 := h 5; have h6 := h 6; have h7 := h 7
    simp only [deintI] at *
    omega
  · rw [show (decimate byteAt k t).q = dec1 (deintQ byteAt (groupBase k t)) from rfl, dec1_eq]
    have h := fun j => sconv_range (byteAt (quadratureAddr (groupBase k t) j))
    have h0 := h 0; have h1 := h 1; have h2 := h 2; have h3 := h 3
    have h4 := h 4; have h5 := h 5; have h6 := h 6; have h7 := h 7
    simp only [deintQ] at *
    omega

/-- The decimated sample depends only on the 16 bytes of its group (R101). -/
theorem decimate_congr {f g : Nat → Byte} {k l t : Nat}
    (h : ∀ i, i < 16 → f (groupBase k t + i) = g (groupBase l t + i)) : decimate f k t = decimate g l t := by
  have h' : ∀ i, i < 16 → f (128 * k + 16 * t + i) = g (128 * l + 16 * t + i) := h
  have hi : ∀ j, j < 8 → deintI f (groupBase k t) j = deintI g (groupBase l t) j := fun j hj => by
    simp only [deintI, inPhaseAddr, groupBase]; rw [h' (2 * j) (by omega)]
  have hq : ∀ j, j < 8 → deintQ f (groupBase k t) j = deintQ g (groupBase l t) j := fun j hj => by
    simp only [deintQ, quadratureAddr, groupBase]
    rw [Nat.add_assoc, Nat.add_assoc (128 * l + 16 * t)]
    rw [h' (2 * j + 1) (by omega)]
  rw [decimate, decimate, dec1_congr hi, dec1_congr hq]

/-! ### BLOCK in closed form -/

/-- R121: the decimated sample that transition `t` of block `k` pairs with its own: the one before it in the block, and for
transition 0 the one that came into the block. -/
def oldOf (byteAt : Nat → Byte) (k : Nat) (prev : Decimated) : Nat → Decimated
  | 0 => prev
  | t + 1 => decimate byteAt k t

/-- The angle of transition `t` of block `k`. -/
def angleOf (byteAt : Nat → Byte) (k : Nat) (prev : Decimated) (t : Nat) : Rat :=
  angle (oldOf byteAt k prev t) (decimate byteAt k t)

theorem transitions_eq (byteAt : Nat → Byte) (k : Nat) (prev : Decimated) (n : Nat) :
    forTo n (transition byteAt k) { acc := 0, prev := prev } =
      { acc := forTo n (fun t acc => dec2Add acc (angleOf byteAt k prev t)) 0, prev := oldOf byteAt k prev n } := by
  induction n with
  | zero => rfl
  | succ n ih => rw [forTo_succ, ih]; rfl

/-- R174: the output sample of a block is that of the sum (R114) of its 8 angles. -/
theorem block_out (byteAt : Nat → Byte) (sc : Rat) (k : Nat) (prev : Decimated) :
    (block byteAt sc k prev).out = outputSample (dec2 (angleOf byteAt k prev)) sc := by
  simp only [block, transitions_eq, dec2]

/-- R174, R161: the block hands on the decimated sample of its group 7. -/
@[simp] theorem block_prev (byteAt : Nat → Byte) (sc : Rat) (k : Nat) (prev : Decimated) :
    (block byteAt sc k prev).prev = decimate byteAt k 7 := by
  simp only [block, transitions_eq, oldOf]

/-- R177: the sample depends only on the 128 bytes of the block, the decimated sample before them, and the scale. -/
theorem block_congr {f g : Nat → Byte} {k l : Nat} (sc : Rat) (prev : Decimated)
    (h : ∀ i, i < 128 → f (128 * k + i) = g (128 * l + i)) : block f sc k prev = block g sc l prev := by
  have hd : ∀ t, t < 8 → decimate f k t = decimate g l t := fun t ht => decimate_congr fun i hi => by
    simp only [groupBase]
    rw [Nat.add_assoc, Nat.add_assoc]
    exact h (16 * t + i) (by omega)
  have : forTo 8 (transition f k) { acc := 0, prev := prev } = forTo 8 (transition g l) { acc := 0, prev := prev } :=
    forTo_congr 8 fun t l' ht => by simp only [transition, hd t ht]
  simp only [block, this]

/-! ### Ranges of the arctangent -/

theorem rn32_pi32 : rn32 pi32 = pi32 := by decide +kernel
theorem rn32_halfPi32 : rn32 halfPi32 = halfPi32 := by decide +kernel

/-- R132: the ratio of two magnitudes lies in [0, 1]. -/
theorem ratio_range {mn mx : Rat} (h0 : 0 ≤ mn) (h : mn ≤ mx) : 0 ≤ ratio mn mx ∧ ratio mn mx ≤ 1 := by
  unfold ratio fdiv
  split_ifs with hz
  · norm_num
  · have hx : 0 < mx := lt_of_le_of_ne (h0.trans h) (Ne.symm hz)
    exact ⟨rn32_nonneg (div_nonneg h0 hx.le), rn32_le_of_le rn32_one ((div_le_one hx).mpr h)⟩

theorem rn32_ratio (mn mx : Rat) : rn32 (ratio mn mx) = ratio mn mx := by
  unfold ratio fdiv
  split_ifs <;> simp

theorem fmin_le_fmax (a b : Rat) : fmin a b ≤ fmax a b := by
  unfold fmin fmax; split_ifs <;> linarith

theorem fmin_nonneg {a b : Rat} (ha : 0 ≤ a) (hb : 0 ≤ b) : 0 ≤ fmin a b := by
  unfold fmin; split_ifs <;> assumption

/-- R134: what the chain of R133 passes through, for a ratio in [0, 1]: `s`, `q1`, `q2` and `u` in this order. -/
theorem poly_chain_range {r : Rat} (h0 : 0 ≤ r) (h1 : r ≤ 1) :
    (0 ≤ fmul r r ∧ fmul r r ≤ 1) ∧
    (polyC1 + polyC2 ≤ fma polyC2 (fmul r r) polyC1 ∧ fma polyC2 (fmul r r) polyC1 ≤ polyC1) ∧
    (polyC0 ≤ fma (fma polyC2 (fmul r r) polyC1) (fmul r r) polyC0 ∧
      fma (fma polyC2 (fmul r r) polyC1) (fmul r r) polyC0 ≤ polyC0 + polyC1) ∧
    (polyC0 ≤ fmul (fma (fma polyC2 (fmul r r) polyC1) (fmul r r) polyC0) (fmul r r) ∧
      fmul (fma (fma polyC2 (fmul r r) polyC1) (fmul r r) polyC0) (fmul r r) ≤ 0) := by
  have hC0 : rn32 polyC0 = polyC0 := by decide +kernel
  have hC1 : rn32 polyC1 = polyC1 := by decide +kernel
  have hC12 : rn32 (polyC1 + polyC2) = polyC1 + polyC2 := by decide +kernel
  have hC01 : rn32 (polyC0 + polyC1) = polyC0 + polyC1 := by decide +kernel
  unfold fma fmul
  set s := rn32 (r * r) with hs
  have s0 : 0 ≤ s := rn32_nonneg (mul_nonneg h0 h0)
  have s1 : s ≤ 1 := rn32_le_of_le rn32_one (by nlinarith)
  set q1 := rn32 (polyC2 * s + polyC1) with hq1
  have q1lo : polyC1 + polyC2 ≤ q1 := le_rn32_of_le hC12 (by rw [polyC2_eq, polyC1_eq]; linarith)
  have q1hi : q1 ≤ polyC1 := rn32_le_of_le hC1 (by rw [polyC2_eq]; nlinarith)
  have q1pos : 0 < q1 := lt_of_lt_of_le (by rw [polyC1_eq, polyC2_eq]; norm_num) q1lo
  have hC1' : polyC1 < 1 := by rw [polyC1_eq]; norm_num
  set q2 := rn32 (q1 * s + polyC0) with hq2
  have q2lo : polyC0 ≤ q2 := le_rn32_of_le hC0 (by nlinarith)
  have q2hi : q2 ≤ polyC0 + polyC1 := rn32_le_of_le hC01 (by nlinarith)
  have q2neg : q2 < 0 := lt_of_le_of_lt q2hi (by rw [polyC0_eq, polyC1_eq]; norm_num)
  exact ⟨⟨s0, s1⟩, ⟨q1lo, q1hi⟩, ⟨q2lo, q2hi⟩, le_rn32_of_le hC0 (by nlinarith), rn32_nonpos (by nlinarith)⟩

/-- R134: `0 <= a <= r` for a ratio `r` in F32. -/
theorem atanPoly_range {r : Rat} (hr : rn32 r = r) (h0 : 0 ≤ r) (h1 : r ≤ 1) : 0 ≤ atanPoly r ∧ atanPoly r ≤ r := by
  obtain ⟨-, -, -, u0, u1⟩ := poly_chain_range h0 h1
  unfold atanPoly
  simp only
  set u := fmul (fma (fma polyC2 (fmul r r) polyC1) (fmul r r) polyC0) (fmul r r)
  rw [polyC0_eq] at u0
  exact ⟨rn32_nonneg (by nlinarith), rn32_le_of_le hr (by nlinarith)⟩

/-- R134: `0.67*r <= a` for a ratio whose exponent is above the least one. -/
theorem atanPoly_ge {r : Rat} (h0 : 1 / 2 ^ 100 ≤ r) (h1 : r ≤ 1) : 67 / 100 * r ≤ atanPoly r := by
  have hr : 0 < r := lt_of_lt_of_le (by norm_num) h0
  obtain ⟨-, -, -, u0, u1⟩ := poly_chain_range hr.le h1
  unfold atanPoly
  simp only
  set u := fmul (fma (fma polyC2 (fmul r r) polyC1) (fmul r r) polyC0) (fmul r r)
  rw [polyC0_eq] at u0
  have hlo : 6723 / 10000 * r ≤ u * r + r := by nlinarith
  have hrel := rn32_ge_of_normal (q := u * r + r) (by linarith)
  unfold fma
  linarith

/-- The angle before the sign correction lies in [0, PI32] (R135, R136). -/
theorem quadrant_range (x y : Rat) :
    0 ≤ quadrant x (octant (fabs x) (fabs y) (atanPoly (ratio (fmin (fabs x) (fabs y)) (fmax (fabs x) (fabs y))))) ∧
      quadrant x (octant (fabs x) (fabs y) (atanPoly (ratio (fmin (fabs x) (fabs y)) (fmax (fabs x) (fabs y))))) ≤
        pi32 := by
  have hmn := fmin_nonneg (abs_nonneg x) (abs_nonneg y)
  obtain ⟨r0, r1⟩ := ratio_range (show 0 ≤ fmin (fabs x) (fabs y) from hmn) (fmin_le_fmax _ _)
  obtain ⟨a0, a1⟩ := atanPoly_range (rn32_ratio _ _) r0 r1
  set a := atanPoly (ratio (fmin (fabs x) (fabs y)) (fmax (fabs x) (fabs y)))
  have hh : (1 : Rat) < halfPi32 := by rw [halfPi32_eq]; norm_num
  have hp : halfPi32 < pi32 := by rw [halfPi32_eq, pi32_eq]; norm_num
  have o : 0 ≤ octant (fabs x) (fabs y) a ∧ octant (fabs x) (fabs y) a ≤ halfPi32 := by
    unfold octant fsub
    split_ifs
    · exact ⟨rn32_nonneg (by linarith), rn32_le_of_le rn32_halfPi32 (by linarith)⟩
    · exact ⟨a0, by linarith⟩
  unfold quadrant fsub
  split_ifs
  · exact ⟨rn32_nonneg (by linarith), rn32_le_of_le rn32_pi32 (by linarith)⟩
  · exact ⟨o.1, by linarith⟩

/-! ### Scale -/

/-- R113, R150: every integer that the CORE converts is converted exactly. -/
theorem i2f_factor (f : BitVec 16) : i2f f.toNat = f.toNat := by
  have := f.isLt
  exact i2f_of_small (by rw [abs_of_nonneg (by positivity)]; omega)

theorem scale_mono {f g : BitVec 16} (h : f.toNat ≤ g.toNat) : scale f ≤ scale g := by
  unfold scale fdiv
  rw [i2f_factor, i2f_factor]
  apply rn32_mono
  have hp : 0 < pi32 := by rw [pi32_eq]; norm_num
  have h' : ((f.toNat : Int) : Rat) ≤ ((g.toNat : Int) : Rat) := by exact_mod_cast h
  exact div_le_div_of_nonneg_right h' hp.le

theorem scale_nonneg (f : BitVec 16) : 0 ≤ scale f := by
  unfold scale fdiv
  rw [i2f_factor]
  have hp : 0 < pi32 := by rw [pi32_eq]; norm_num
  exact rn32_nonneg (div_nonneg (by positivity) hp.le)

end Sys2Proof.Machine
end

