-- ==== Sys2Proof/Laws/Exec.lean ====
section
/-! SUPPORT. What each meaning and each step can do, said once: the loop of PROCESS, the three outcomes of PROCESS, the
host's transactions, and one step. -/

namespace Sys2Proof.Machine

open Sys2Proof.Config (Space)

/-! ### The loop of PROCESS (R173) -/

@[simp] theorem processBlocks_zero (s : State) : processBlocks s 0 = { prev := s.carry, obuf := s.obuf } := rfl

/-- R161: `prev` after `n` blocks. -/
theorem processBlocks_prev (s : State) (n : Nat) : (processBlocks s n).prev = s.prevOf n := by
  cases n with
  | zero => rfl
  | succ n => simp [processBlocks, processBlock, State.prevOf]

/-- The memory after one more block: its sample stored at its address (R154, R55). -/
theorem processBlocks_succ_obuf (s : State) (n : Nat) :
    (processBlocks s (n + 1)).obuf = (processBlocks s n).obuf.write (sampleAddr n) 2 (s.sampleOf n).toNat := by
  rw [State.sampleOf, ← processBlocks_prev]; rfl

/-- R55: no byte at or above `2 * n` is written by `n` blocks. -/
theorem processBlocks_obuf_above (s : State) (n a : Nat) (h : 2 * n ≤ a) :
    (processBlocks s n).obuf.get? a = s.obuf.get? a := by
  induction n with
  | zero => rfl
  | succ n ih =>
    rw [processBlocks_succ_obuf, Memory.get?_write_outside _ _ _ _ _ (by simp only [sampleAddr]; omega)]
    exact ih (by omega)

/-- R55: sample `k` of the `n` blocks is stored at its address and nothing later overwrites it. -/
theorem processBlocks_obuf_sample (s : State) (n k i : Nat) (hk : k < n) (hi : i < 2) :
    (processBlocks s n).obuf.get? (sampleAddr k + i) =
      ((processBlocks s k).obuf.write (sampleAddr k) 2 (s.sampleOf k).toNat).get? (sampleAddr k + i) := by
  induction n with
  | zero => omega
  | succ n ih =>
    rcases Nat.lt_succ_iff_lt_or_eq.mp hk with h | rfl
    · rw [processBlocks_succ_obuf, Memory.get?_write_outside _ _ _ _ _ (by simp only [sampleAddr]; omega)]
      exact ih h
    · rw [processBlocks_succ_obuf]

theorem processBlocks_obuf_wf (s : State) (h : s.obuf.wf = true) (n : Nat) : (processBlocks s n).obuf.wf = true := by
  induction n with
  | zero => exact h
  | succ n ih => rw [processBlocks_succ_obuf]; exact Memory.write_wf ih _ _ _

theorem processBlocks_obuf_within (s : State) {size : Nat} (h : s.obuf.Within size) (n : Nat) (hn : 2 * n ≤ size) :
    (processBlocks s n).obuf.Within size := by
  induction n with
  | zero => exact h
  | succ n ih =>
    rw [processBlocks_succ_obuf]
    exact Memory.write_within (ih (by omega)) (by simp only [sampleAddr]; omega) _

/-! ### PROCESS -/

/-- The state an accepted PROCESS of `n` blocks leaves (R173). -/
def State.processed (s : State) (n : Nat) : State :=
  (((s.setObuf (processBlocks s n).obuf).writeBack n (processBlocks s n).prev).setOcount (BitVec.ofNat 32 n)).complete

section WriteBack

variable (s : State) (n : Nat) (p : Decimated)

/-- R161: the carryover registers after the end of a PROCESS. -/
theorem State.writeBack_carry : (s.writeBack n p).carryI = (if 1 ≤ n then BitVec.ofInt 32 p.i else s.carryI) ∧
    (s.writeBack n p).carryQ = (if 1 ≤ n then BitVec.ofInt 32 p.q else s.carryQ) := by
  unfold State.writeBack; split_ifs <;> exact ⟨rfl, rfl⟩

@[simp] theorem State.writeBack_volf : (s.writeBack n p).volf = s.volf := by unfold State.writeBack; split_ifs <;> rfl
@[simp] theorem State.writeBack_fault : (s.writeBack n p).fault = s.fault := by unfold State.writeBack; split_ifs <;> rfl
@[simp] theorem State.writeBack_ibuf : (s.writeBack n p).ibuf = s.ibuf := by unfold State.writeBack; split_ifs <;> rfl
@[simp] theorem State.writeBack_obuf : (s.writeBack n p).obuf = s.obuf := by unfold State.writeBack; split_ifs <;> rfl
@[simp] theorem State.writeBack_ibufSize : (s.writeBack n p).ibufSize = s.ibufSize := by
  unfold State.writeBack; split_ifs <;> rfl
@[simp] theorem State.writeBack_epoch : (s.writeBack n p).epoch = s.epoch := by unfold State.writeBack; split_ifs <;> rfl
@[simp] theorem State.writeBack_schedule : (s.writeBack n p).schedule = s.schedule := by
  unfold State.writeBack; split_ifs <;> rfl
@[simp] theorem State.writeBack_reads : (s.writeBack n p).reads = s.reads := by unfold State.writeBack; split_ifs <;> rfl

end WriteBack

section Processed

variable (s : State) (n : Nat)

@[simp] theorem State.processed_volf : (s.processed n).volf = s.volf := by simp [State.processed]
@[simp] theorem State.processed_errcode : (s.processed n).errcode = .ok := by simp [State.processed]
@[simp] theorem State.processed_fault : (s.processed n).fault = s.fault := by simp [State.processed]
@[simp] theorem State.processed_ocount : (s.processed n).ocount = BitVec.ofNat 32 n := by simp [State.processed]
@[simp] theorem State.processed_running : (s.processed n).running = none := by simp [State.processed]
@[simp] theorem State.processed_ibuf : (s.processed n).ibuf = s.ibuf := by simp [State.processed]
@[simp] theorem State.processed_obuf : (s.processed n).obuf = (processBlocks s n).obuf := by simp [State.processed]
@[simp] theorem State.processed_ibufSize : (s.processed n).ibufSize = s.ibufSize := by simp [State.processed]
@[simp] theorem State.processed_epoch : (s.processed n).epoch = s.epoch := by simp [State.processed]
@[simp] theorem State.processed_schedule : (s.processed n).schedule = s.schedule := by simp [State.processed]
@[simp] theorem State.processed_reads : (s.processed n).reads = s.reads := by simp [State.processed]
@[simp] theorem State.processed_byteAt_ibuf : (s.processed n).byteAt .ibuf = s.byteAt .ibuf := by
  funext a; simp [State.byteAt]
@[simp] theorem State.processed_obufBytes : (s.processed n).obufBytes = s.obufBytes := by
  simp [State.obufBytes, State.ibufBytes]
@[simp] theorem State.processed_ibufBytes : (s.processed n).ibufBytes = s.ibufBytes := by simp [State.ibufBytes]

theorem State.processed_carry_zero : (s.processed 0).carryI = s.carryI ∧ (s.processed 0).carryQ = s.carryQ := by
  simp [State.processed, State.writeBack]

theorem State.processed_carry_succ :
    (s.processed (n + 1)).carryI = BitVec.ofInt 32 (decimate (s.byteAt .ibuf) n 7).i ∧
      (s.processed (n + 1)).carryQ = BitVec.ofInt 32 (decimate (s.byteAt .ibuf) n 7).q := by
  simp [State.processed, State.writeBack_carry, processBlocks_prev, State.prevOf]

/-- R55, R173: sample `k` after the command. -/
theorem State.processed_sample {k : Nat} (hk : k < n) : (s.processed n).sample k = s.sampleOf k := by
  apply memRead_write_two (processBlocks s k).obuf (sampleAddr k)
  intro i hi
  rw [State.byteAt_obuf, State.processed_obuf, processBlocks_obuf_sample s n k i hk hi,
    Memory.get?_write_inside _ _ _ _ _ hi, Option.getD_some]

/-- R55: every byte at or above `2 * N` keeps its value. -/
theorem State.processed_byteAt_above {a : Nat} (h : 2 * n ≤ a) : (s.processed n).byteAt .obuf a = s.byteAt .obuf a := by
  rw [State.byteAt_obuf, State.byteAt_obuf, State.processed_obuf, processBlocks_obuf_above s n a h, State.processed_epoch]

end Processed

/-- The three outcomes of PROCESS, in the order of R192. -/
theorem execProcess_cases (len : BitVec 24) (s : State) :
    (lenBytes len % Config.blockBytes ≠ 0 ∧ execProcess len s = .next (s.reject .badLength)) ∨
    (lenBytes len % Config.blockBytes = 0 ∧ s.ibufBytes < lenBytes len ∧
      execProcess len s = .next (s.reject .bufferRange)) ∨
    (s.accepts len ∧ execProcess len s = .next (s.processed (lenBlocks len))) := by
  unfold execProcess
  by_cases h1 : lenBytes len % Config.blockBytes = 0
  · by_cases h2 : s.ibufBytes < lenBytes len
    · exact .inr (.inl ⟨h1, h2, by rw [if_neg (not_not.mpr h1), if_pos h2]⟩)
    · exact .inr (.inr ⟨⟨h1, not_lt.mp h2⟩, by rw [if_neg (not_not.mpr h1), if_neg h2]; rfl⟩)
  · exact .inl ⟨h1, by rw [if_pos h1]⟩

theorem execProcess_of_accepts {len : BitVec 24} {s : State} (h : s.accepts len) :
    execProcess len s = .next (s.processed (lenBlocks len)) := by
  rcases execProcess_cases len s with ⟨h1, -⟩ | ⟨-, h2, -⟩ | ⟨-, h3⟩
  · exact absurd h.1 h1
  · exact absurd h.2 (not_le.mpr h2)
  · exact h3

/-- R58: an accepted length always fits `OBUF`, and `OCOUNT`. -/
theorem State.accepts_fits {len : BitVec 24} {s : State} (h : s.accepts len) :
    2 * lenBlocks len ≤ s.obufBytes ∧ lenBlocks len ≤ 131071 := by
  obtain ⟨h1, h2⟩ := h
  have h3 := s.ibufSize.isLt
  simp only [lenBlocks, State.obufBytes, State.ibufBytes, Config.blockBytes] at *
  omega

/-- What a command can do: it always answers a next state, in which the command is over (R170, R193). -/
theorem exec_cases (i : Instr) (s : State) :
    (i = .reset ∧ exec i s = .next (s.setCarry 0#32 0#32).complete) ∨
    (∃ f, i = .setvol f ∧ exec i s = .next (s.setVolf f).complete) ∨
    (∃ len, i = .process len ∧ s.accepts len ∧ exec i s = .next (s.processed (lenBlocks len))) ∨
    (∃ len c, i = .process len ∧ ¬ s.accepts len ∧ (c = .badLength ∨ c = .bufferRange) ∧
      exec i s = .next (s.reject c)) := by
  cases i with
  | reset => exact .inl ⟨rfl, rfl⟩
  | setvol f => exact .inr (.inl ⟨f, rfl, rfl⟩)
  | process len =>
    rcases execProcess_cases len s with ⟨h1, h2⟩ | ⟨h1, h2, h3⟩ | ⟨h1, h2⟩
    · exact .inr (.inr (.inr ⟨len, .badLength, rfl, fun h => h1 h.1, .inl rfl, h2⟩))
    · exact .inr (.inr (.inr ⟨len, .bufferRange, rfl, fun h => absurd h.2 (not_le.mpr h2), .inr rfl, h3⟩))
    · exact .inr (.inr (.inl ⟨len, rfl, h1, h2⟩))

/-! ### The host's transactions -/

theorem regAt_cmd {o : Nat} : regAt o = some .cmd ↔ o = 0 := by
  unfold regAt; split <;> simp_all

theorem regAt_status {o : Nat} : regAt o = some .status ↔ o = 4 := by
  unfold regAt; split <;> simp_all

/-- What a transaction can do where it goes on: one of six shapes, each allowed now. -/
theorem hostStep_cases {t : HostTx} {s s' : State} (h : hostStep t s = .next s') :
    (t = .hreset ∧ s' = s.hardwareReset) ∨
    (∃ w, t = .wrcmd w ∧ s.busy = false ∧ s' = s.accept w) ∨
    (∃ o w, t = .wrreg o w ∧ s.busy = false ∧ o ≠ 0 ∧ s' = s) ∨
    (∃ a bs, t = .wribuf a bs ∧ s.busy = false ∧ (bs = [] ∨ a + bs.length ≤ s.ibufBytes) ∧
      s' = s.setIbuf (s.ibuf.writeBytes a bs)) ∨
    (∃ d, s' = s.observe d) := by
  cases t with
  | hreset => exact .inl ⟨rfl, by simpa [hostStep, eq_comm] using h⟩
  | wrreg o w =>
    simp only [hostStep, hostWriteReg] at h
    split at h
    · cases h
    · rename_i r hr
      split_ifs at h with hb hc
      · cases h
        subst hc
        have := regAt_cmd.mp hr
        subst this
        exact .inr (.inl ⟨w, rfl, by simpa using hb, rfl⟩)
      · cases h
        exact .inr (.inr (.inl ⟨o, w, rfl, by simpa using hb, by
          rintro rfl; simp [regAt] at hr; exact hc hr.symm, rfl⟩))
  | rdreg o =>
    simp only [hostStep, hostReadReg] at h
    split at h
    · cases h
    · split_ifs at h
      cases h
      exact .inr (.inr (.inr (.inr ⟨_, rfl⟩)))
  | wribuf a bs =>
    simp only [hostStep, hostWriteIbuf] at h
    split_ifs at h with hb hr
    cases h
    refine .inr (.inr (.inr (.inl ⟨a, bs, rfl, by simpa using hb, ?_, rfl⟩)))
    by_cases hbs : bs = []
    · exact .inl hbs
    · exact .inr (by simpa [hbs] using hr)
  | rdibuf a =>
    simp only [hostStep, hostReadIbuf] at h
    split_ifs at h
    cases h
    exact .inr (.inr (.inr (.inr ⟨_, rfl⟩)))
  | rdobufByte a =>
    simp only [hostStep, hostReadObufByte] at h
    split_ifs at h
    cases h
    exact .inr (.inr (.inr (.inr ⟨_, rfl⟩)))
  | rdobufHalf a =>
    simp only [hostStep, hostReadObufHalf] at h
    split_ifs at h
    cases h
    exact .inr (.inr (.inr (.inr ⟨_, rfl⟩)))

/-! ### One step -/

theorem step_host {s : State} {t : HostTx} {rest : List Event} (h : s.schedule = .host t :: rest) :
    step s = hostStep t (s.setSchedule rest) := by
  simp [step, nextMove, h]

theorem step_core {s : State} {rest : List Event} (h : s.schedule = .core :: rest) :
    step s = coreStep (s.setSchedule rest) := by
  simp [step, nextMove, h]

theorem step_no_move {s : State} (h : s.schedule = []) : step s = coreStep s := by
  simp [step, nextMove, h]

/-- A move of the CORE always goes on: with no command it idles, an illegal word is rejected, a command runs. -/
theorem coreStep_cases (s : State) :
    (s.running = none ∧ coreStep s = .next s) ∨
    (∃ w why, s.running = some w ∧ decode w = .error why ∧ coreStep s = .next (s.reject .illegalCmd)) ∨
    (∃ w i, s.running = some w ∧ decode w = .ok i ∧ coreStep s = exec i s) := by
  cases hr : s.running with
  | none => exact .inl ⟨rfl, by simp [coreStep, takeCommand, hr, idleStep]⟩
  | some w =>
    cases hd : decode w with
    | error why => exact .inr (.inl ⟨w, why, rfl, hd, by simp [coreStep, takeCommand, hr, hd, rejectIllegal]⟩)
    | ok i => exact .inr (.inr ⟨w, i, rfl, hd, by simp [coreStep, takeCommand, hr, hd]⟩)

/-- One step: the move at the head of the schedule, or the CORE's where the schedule is empty. -/
theorem step_cases (s : State) :
    (∃ t rest, s.schedule = .host t :: rest ∧ step s = hostStep t (s.setSchedule rest)) ∨
    (∃ rest, s.schedule = .core :: rest ∧ step s = coreStep (s.setSchedule rest)) ∨
    (s.schedule = [] ∧ step s = coreStep s) := by
  cases hs : s.schedule with
  | nil => exact .inr (.inr ⟨rfl, step_no_move hs⟩)
  | cons e rest =>
    cases e with
    | host t => exact .inl ⟨t, rest, rfl, step_host hs⟩
    | core => exact .inr (.inl ⟨rest, rfl, step_core hs⟩)

end Sys2Proof.Machine
end

