-- ==== Sys2Proof/Laws/PerInstr.lean ====
section
/-! SUPPORT. The families of statements made once per command. -/

namespace Sys2Proof.Laws

/-- The mask of a command's row in spec/opcode_table.json (R82 to R84). -/
def rowMask : Instr → Word
  | .reset => 0xFFFFFFFF#32
  | .setvol _ => 0xFFFF0000#32
  | .process _ => 0xFF000000#32

/-- The match of a command's row in spec/opcode_table.json (R82 to R84). -/
def rowMatch : Instr → Word
  | .reset => 0x10000000#32
  | .setvol _ => 0x20000000#32
  | .process _ => 0x30000000#32

/-- The encoder writes the fixed bits of the command's own row. -/
def EncodesItsRow.Statement (i : Instr) : Prop := encode i &&& rowMask i = rowMatch i

theorem EncodesItsRow.reset : EncodesItsRow.Statement .reset := by
  unfold EncodesItsRow.Statement; decide

theorem EncodesItsRow.setvol (factor : BitVec 16) : EncodesItsRow.Statement (.setvol factor) := by
  apply BitVec.eq_of_getLsbD_eq
  intro i hi
  simp only [encode, rowMask, rowMatch, BitVec.getLsbD_and, BitVec.getLsbD_append]
  rcases lt_or_ge i 16 with h | h
  · rw [show (0xFFFF0000#32).getLsbD i = false by interval_cases i <;> rfl]
    interval_cases i <;> simp
  · interval_cases i <;> simp

theorem EncodesItsRow.process (len : BitVec 24) : EncodesItsRow.Statement (.process len) := by
  apply BitVec.eq_of_getLsbD_eq
  intro i hi
  simp only [encode, rowMask, rowMatch, BitVec.getLsbD_and, BitVec.getLsbD_append]
  rcases lt_or_ge i 24 with h | h
  · rw [show (0xFF000000#32).getLsbD i = false by interval_cases i <;> rfl]
    interval_cases i <;> simp
  · interval_cases i <;> simp

end Sys2Proof.Laws
end

