-- ==== Sys2Proof/Tests/Slice0.lean ====
section
/-! SUPPORT. Tests. Expected results come from the spec (95_test_vectors.md, and the corner cases of the rules); the last
part shows, for each statement with hypotheses, a concrete state and operands that meet them. -/

namespace Sys2Proof.Tests

open Sys2Proof.Machine

/-! ### WellFormed: an ill-formed term for each check (R89) -/

theorem test_setvol_operand_too_large : AsmLine.wellFormed (.setvol 65536) = false := by decide
theorem test_process_operand_too_large : AsmLine.wellFormed (.process 16777216) = false := by decide
theorem test_ill_formed_line_is_not_assembled :
    assemble (.setvol 65536) = none ∧ assemble (.process 16777216) = none := by decide
theorem test_largest_operands_are_assembled :
    assemble (.setvol 65535) = some (.setvol 0xFFFF#16) ∧ assemble (.process 16777215) = some (.process 0xFFFFFF#24) := by
  decide

/-! ### Decode: words written out from R82 to R84, and the reserved space of section 2.7 -/

theorem test_decode_reset : decode 0b00010000000000000000000000000000#32 = .ok .reset := by decide
theorem test_decode_setvol : decode 0b00100000000000000001000000000000#32 = .ok (.setvol 4096#16) := by decide
theorem test_decode_process : decode 0b00110000000000000000000110000000#32 = .ok (.process 384#24) := by decide
theorem test_decode_top_bits :
    decode 0x2000FFFF#32 = .ok (.setvol 65535#16) ∧ decode 0x30FFFFFF#32 = .ok (.process 16777215#24) := by decide
theorem test_decode_reserved :
    decode 0x1FFFFFFF#32 = .error .resetReservedBits ∧ decode 0x20012000#32 = .error .setvolReservedBits ∧
    decode 0x31000000#32 = .error .processReservedBits ∧ decode 0x00000000#32 = .error (.reservedOp 0#4) ∧
    decode 0xFFFFFFFF#32 = .error (.reservedOp 15#4) := by decide
theorem test_encode_words :
    encode .reset = 0x10000000#32 ∧ encode (.setvol 8192#16) = 0x20002000#32 ∧
    encode (.process 128#24) = 0x30000080#32 := by decide
theorem test_table_word :
    decodeTableWord 32 0x20001001 = some (.setvol 4097#16) ∧ decodeTableWord 32 0x10000001 = none := by decide

/-! ### The floating-point primitives and the units -/

/-- R15's words and exact values; R114's running sum: the third addition of `PI32` is the first to round. -/
theorem test_rounding :
    f32 0x40490FDB#32 = 31415927410125732421875 / 10 ^ 22 ∧ fadd pi32 (fadd pi32 pi32) = f32 0x4116CBE4#32 ∧
    rn32 (16777217 : Rat) = 16777216 ∧ rn32 (16777219 : Rat) = 16777220 := by decide +kernel

/-- R100's corner cases and the stage-1 sums of section 2.2. -/
theorem test_sign_conversion :
    sconv 0x00#8 = -128 ∧ sconv 0x7F#8 = -1 ∧ sconv 0x80#8 = 0 ∧ sconv 0xE4#8 = 100 ∧ sconv 0xFF#8 = 127 := by decide

/-- Section 2.3, the extreme of `y`. -/
theorem test_discriminator :
    discX { i := -1024, q := -1024 } { i := 1016, q := -1024 } = 8192 ∧
    discY { i := -1024, q := -1024 } { i := 1016, q := -1024 } = 2088960 := by decide

/-- Section 2.4: an octant and a sign correction, a quadrant correction, and the 45 degree line with the strict comparison. -/
theorem test_arctangent :
    atan2a 1856 (-5120) = f32 0xBF9C896A#32 ∧ atan2a (-4288) 1024 = f32 0x403A0E5E#32 ∧
    atan2a 1 1 = f32 0x3F49028A#32 ∧ atan2a (-1) 1 = f32 0x4016CF38#32 ∧ atan2a 0 0 = 0 := by decide +kernel

/-- R133's example. -/
theorem test_polynomial : atanPoly (f32 0x3F13B646#32) = f32 0x3F05F48B#32 := by decide +kernel

/-- R114's example, which a tree of additions would miss. -/
theorem test_sum_of_angles :
    dec2 (fun t => if t = 0 then 0 else halfPi32) = f32 0x412FEDDF#32 := by decide +kernel

/-- Section 2.6: the order of multiply and divide, truncation toward zero, and the wrap. -/
theorem test_output_stage :
    scale 5000#16 = f32 0x44C6F195#32 ∧ gain (f32 0x4175CEEA#32) (scale 5000#16) = f32 0x46BF0600#32 ∧
    outputSample (f32 0xBF49028A#32) (scale 4096#16) = 0xFC01#16 ∧
    outputSample (f32 0x41C90FDA#32) (scale 8192#16) = 0xFFFF#16 := by decide +kernel

theorem test_wrap :
    (wrap16 32768).toInt = -32768 ∧ (wrap16 (-32769)).toInt = 32767 ∧ (wrap16 524279).toInt = -9 ∧
    (wrap16 (-524279)).toInt = 9 := by decide

/-! ### One step -/

/-- The CORE of section 3: `IBUF_BYTES = 256`. -/
def small : State := { State.reset with ibufSize := 1 }

/-- `small` with the first `n` bytes of `IBUF` written. -/
def filled (n : Nat) (f : Nat → Byte) : State := { small with ibuf := (List.range n).map fun a => (a, f a) }

/-- The bytes of program P6. -/
def p6 (n : Nat) : Byte := BitVec.ofNat 8 (7 * n * n + 13 * n + 5)

/-- The state that a step goes on to. -/
def after (s : State) : State :=
  match step s with
  | .next t => t
  | .fault _ => s
  | .refused _ => s

/-- R171's example: RESET clears the carryover and leaves the volume. -/
theorem test_reset :
    let t := after (State.withFetchWord { small with carryI := 0xFFFFFC00#32, carryQ := 0xFFFFFC00#32, volf := 8192#16 }
      32 0x10000000)
    t.carryI = 0#32 ∧ t.carryQ = 0#32 ∧ t.volf = 8192#16 ∧ t.statusWord = 0#32 := by decide

/-- An accepted command after a rejection reads `STATUS` = 0x10 (section 2.7). -/
theorem test_reset_leaves_fault :
    (after (State.withFetchWord { small with errcode := .badLength, fault := true } 32 0x10000000)).statusWord = 0x10#32 := by
  decide

/-- R172's example. -/
theorem test_setvol :
    let t := after (small.withFetchWord 32 0x20002000)
    t.volf = 8192#16 ∧ t.statusWord = 0#32 := by decide

theorem test_setvol_zero_is_accepted : (after (small.withFetchWord 32 0x20000000)).volf = 0#16 := by decide

/-- P6 as one call of 128 bytes: sample -2679 = 0xF589, low byte first, and the carryover (208, 128). -/
theorem test_process :
    let t := after ((filled 128 p6).withFetchWord 32 0x30000080)
    t.obuf = [(0, 0x89#8), (1, 0xF5#8)] ∧ t.carryI.toInt = 208 ∧ t.carryQ.toInt = 128 ∧ t.ocount = 1#32 := by
  decide +kernel

/-- P7, steps 5 to 7: the alignment check comes before the range check. -/
theorem test_process_rejected :
    (after (small.withFetchWord 32 0x30000064)).statusWord = 0x14#32 ∧
    (after (small.withFetchWord 32 0x30000180)).statusWord = 0x16#32 ∧
    (after (small.withFetchWord 32 0x30000101)).statusWord = 0x14#32 := by decide

/-- P7, steps 8 to 10. -/
theorem test_illegal_words :
    (after (small.withFetchWord 32 0x00000000)).statusWord = 0x12#32 ∧
    (after (small.withFetchWord 32 0x20012000)).statusWord = 0x12#32 := by decide

/-- `BUSY` is seen between the `WRCMD` and the CORE's move. -/
theorem test_wrcmd_sets_busy :
    (after { small with schedule := [.host (.wrcmd 0x10000000#32)] }).statusWord = 1#32 := by decide

/-- R210: `HRESET` abandons the running command. -/
theorem test_hreset_while_busy :
    let t := after { small with volf := 1000#16, running := some 0x30000080#32, schedule := [.host .hreset] }
    t.volf = 4096#16 ∧ t.statusWord = 0#32 := by decide

/-- R29, R58: a reserved offset, an address outside `OBUF`, a misaligned read. -/
theorem test_reserved_accesses :
    hostStep (.rdreg 0x18) small = .refused (.reservedOffset 0x18) ∧
    hostStep (.rdobufByte 4) small = .fault (.noSuchAddress .obuf 4) ∧
    hostStep (.rdobufHalf 1) small = .refused (.misalignedRead 1) := ⟨rfl, rfl, rfl⟩

/-! ### A state and operands that meet the hypotheses of each statement -/

/-- A PROCESS of 128 bytes in flight, the CORE to move. -/
def busySmall : State := { filled 128 p6 with running := some 0x30000080#32, schedule := [.core] }

/-- Two blocks of one repeated byte. -/
def constant : State := filled 256 fun _ => 0xFF#8

theorem filled_small_byteAt : ∀ a, a < 128 → (filled 128 p6).byteAt .ibuf a = p6 a := by decide +kernel

theorem witness_DecodeOfEncode : (Instr.process 16777215#24).wellFormed = true := rfl

theorem witness_EncodeOfDecode : decode 0x30000080#32 = .ok (.process 128#24) := by decide

/-- The ranges of the four clauses, at their ends. -/
theorem witness_AssembledWords : 65535 ≤ 65535 ∧ 16777215 ≤ 16777215 ∧ 65535 < 65536 ∧ 16777215 < 16777216 := by decide

theorem witness_StepRunsTheDecodedCommand :
    busySmall.running = some 0x30000080#32 ∧ decode 0x30000080#32 = .ok (.process 128#24) ∧
    (Instr.process 128#24).wellFormed = true ∧ busySmall.schedule = .core :: [] ∧
    ({ busySmall with schedule := [] } : State).schedule = [] := by decide

theorem witness_WrcmdStartsACommand :
    ({ small with schedule := [.host (.wrcmd 0x10000000#32)] } : State).running = none ∧
    ({ small with schedule := [.host (.wrcmd 0x10000000#32)] } : State).schedule = .host (.wrcmd 0x10000000#32) :: [] := by
  decide

theorem witness_EveryCommandEnds : busySmall.running = some 0x30000080#32 ∧ busySmall.coreMoves :=
  ⟨rfl, .inr ⟨[], rfl⟩⟩

/-- The three clauses: an illegal word, a length one above a multiple of 128, and the first length beyond `IBUF`. -/
theorem witness_RejectionWritesOnlyStatus :
    (∀ i, decode 0x00000000#32 ≠ .ok i) ∧
    (decode 0x30000101#32 = .ok (.process 257#24) ∧ (257#24).toNat % 128 ≠ 0) ∧
    (decode 0x30000180#32 = .ok (.process 384#24) ∧ (384#24).toNat % 128 = 0 ∧ small.ibufBytes < (384#24).toNat) := by
  refine ⟨fun i h => ?_, by decide, by decide⟩
  cases h

/-- A move of the CORE with a command in flight, and where it goes: the hypotheses of `ErrcodeNamesTheCause`,
`FaultIsSticky` (first and third clause by a rejection, second with `FAULT` clear) and `EveryChangeHasItsCause`. -/
theorem witness_ErrcodeNamesTheCause :
    let s : State := { small with running := some 0x30000064#32, schedule := [.core] }
    s.running = some 0x30000064#32 ∧ s.coreMoves ∧ step s = .next ((s.setSchedule []).reject .badLength) ∧
    s.fault = false ∧ ((s.setSchedule []).reject .badLength).fault = true ∧
    ((s.setSchedule []).reject .badLength).errcode ≠ .ok ∧ ¬ s.resetMoves :=
  ⟨rfl, .inr ⟨[], rfl⟩, rfl, rfl, rfl, by decide, fun ⟨_, h⟩ => by cases h⟩

theorem witness_FaultIsSticky :
    step { small with fault := true } = .next { small with fault := true } ∧
    ({ small with fault := true } : State).fault = true := ⟨rfl, rfl⟩

theorem witness_IdleCoreHoldsItsState :
    small.running = none ∧ small.schedule = [] ∧ ({ small with schedule := [.core] } : State).schedule = .core :: [] :=
  ⟨rfl, rfl, rfl⟩

/-- A change of each kind: of `VOLF`, of the carryover, of `OCOUNT` and `OBUF`, of `IBUF`, of `ERRCODE`. -/
theorem witness_EveryChangeHasItsCause :
    (after (small.withFetchWord 32 0x20002000)).volf ≠ small.volf ∧
    (after busySmall).carryI ≠ busySmall.carryI ∧ (after busySmall).ocount ≠ busySmall.ocount ∧
    (after { small with schedule := [.host (.wribuf 0 [7#8])] }).ibuf ≠ small.ibuf ∧
    (after (small.withFetchWord 32 0)).errcode ≠ small.errcode := by decide +kernel

/-- No block, one block, and as many as `IBUF` holds. -/
theorem witness_ProcessStoresTheSamples :
    small.accepts 0#24 ∧ lenBlocks 0#24 = 0 ∧ small.accepts 128#24 ∧ 1 ≤ lenBlocks 128#24 ∧ 0 < lenBlocks 128#24 ∧
    small.accepts 256#24 ∧ 1 < lenBlocks 256#24 := by
  unfold State.accepts; decide

theorem accepts_128 : (filled 128 p6).accepts 128#24 := by unfold State.accepts; decide

theorem accepts_256 : constant.accepts 256#24 := by unfold State.accepts; decide

theorem witness_ProcessWritesExactlyItsSamples :
    (filled 128 p6).accepts 128#24 ∧
    exec (.process 128#24) (filled 128 p6) = .next ((filled 128 p6).processed 1) ∧ 1 < (128#24).toNat / 64 :=
  ⟨accepts_128, execProcess_of_accepts accepts_128, by decide⟩

/-- One block and one more, of the same byte: the second call reads the bytes the single call has at 128 and above. -/
theorem witness_SplitProcessIsContinuous :
    (256#24).toNat = (128#24).toNat + (128#24).toNat ∧ (128#24).toNat % 128 = 0 ∧ constant.accepts 256#24 ∧
    exec (.process 128#24) constant = .next (constant.processed 1) ∧
    (∀ a, a < (128#24).toNat → (constant.processed 1).byteAt .ibuf a = constant.byteAt .ibuf ((128#24).toNat + a)) ∧
    exec (.process 128#24) (constant.processed 1) = .next ((constant.processed 1).processed 1) ∧
    exec (.process 256#24) constant = .next (constant.processed 2) ∧ 0 < lenBlocks 128#24 := by
  have h1 : constant.accepts 128#24 := by unfold State.accepts; decide
  have h2 : (constant.processed 1).accepts 128#24 := by
    unfold State.accepts; rw [State.processed_ibufBytes]; decide
  refine ⟨by decide, by decide, accepts_256, execProcess_of_accepts h1, ?_, execProcess_of_accepts h2,
    execProcess_of_accepts accepts_256, by decide⟩
  rw [State.processed_byteAt_ibuf]
  decide +kernel

/-- Blocks 0 and 1 of equal bytes, after equal samples. -/
theorem witness_SampleIsLocal :
    let c : State := { constant with carryI := 1016#32, carryQ := 1016#32 }
    c.accepts 256#24 ∧ 0 < lenBlocks 256#24 ∧ 1 < lenBlocks 256#24 ∧
    exec (.process 256#24) c = .next (c.processed 2) ∧ c.prevOf 0 = c.prevOf 1 ∧
    (∀ i, i < 128 → c.byteAt .ibuf (128 * 0 + i) = c.byteAt .ibuf (128 * 1 + i)) := by
  have h : State.accepts { constant with carryI := 1016#32, carryQ := 1016#32 } 256#24 := accepts_256
  exact ⟨h, by decide, by decide, execProcess_of_accepts h, by decide +kernel, by decide +kernel⟩

/-- `filled 128 p6` with byte 128 written as well. -/
def filledAbove : State := { small with ibuf := (filled 128 p6).ibuf ++ [(128, 1#8)] }

/-- Two states that differ at the first address not below `LEN`. -/
theorem witness_ProcessReadsOnlyItsLength :
    (filled 128 p6).accepts 128#24 ∧ filledAbove.accepts 128#24 ∧ (filled 128 p6).volf = filledAbove.volf ∧
    (filled 128 p6).carryI = filledAbove.carryI ∧ (filled 128 p6).carryQ = filledAbove.carryQ ∧
    (∀ a, a < (128#24).toNat → (filled 128 p6).byteAt .ibuf a = filledAbove.byteAt .ibuf a) ∧
    (filled 128 p6).ibuf ≠ filledAbove.ibuf ∧
    exec (.process 128#24) (filled 128 p6) = .next ((filled 128 p6).processed 1) ∧
    exec (.process 128#24) filledAbove = .next (filledAbove.processed 1) := by
  have h : filledAbove.accepts 128#24 := by unfold State.accepts; decide
  exact ⟨accepts_128, h, rfl, rfl, rfl, by decide +kernel, by decide +kernel, execProcess_of_accepts accepts_128,
    execProcess_of_accepts h⟩

theorem witness_ConstantInputIsSilent :
    let r := (constant.setCarry 0#32 0#32).complete
    exec .reset constant = .next r ∧ r.accepts 256#24 ∧ (∀ a, a < (256#24).toNat → r.byteAt .ibuf a = 0xFF#8) ∧
    exec (.process 256#24) r = .next (r.processed 2) ∧ 1 ≤ lenBlocks 256#24 := by
  have h : State.accepts (constant.setCarry 0#32 0#32).complete 256#24 := accepts_256
  exact ⟨rfl, h, by decide +kernel, execProcess_of_accepts h, by decide⟩

theorem witness_FirstAngleAfterResetIsZero :
    exec .reset small = .next ((small.setCarry 0#32 0#32).complete) := rfl

theorem witness_StaleCarryoverTouchesOneSample :
    let s' : State := { constant with carryI := 1016#32, carryQ := 1016#32 }
    constant.accepts 256#24 ∧ exec (.process 256#24) constant = .next (constant.processed 2) ∧
    exec (.process 256#24) s' = .next (s'.processed 2) ∧ 1 < lenBlocks 256#24 ∧ 1 ≤ lenBlocks 256#24 := by
  have h : State.accepts { constant with carryI := 1016#32, carryQ := 1016#32 } 256#24 := accepts_256
  exact ⟨accepts_256, execProcess_of_accepts accepts_256, execProcess_of_accepts h, by decide, by decide⟩

theorem witness_FactorLeavesTheCarryover :
    let s' : State := { constant with volf := 1#16 }
    exec (.process 256#24) constant = .next (constant.processed 2) ∧
    exec (.process 256#24) s' = .next (s'.processed 2) := by
  have h : State.accepts { constant with volf := 1#16 } 256#24 := accepts_256
  exact ⟨execProcess_of_accepts accepts_256, execProcess_of_accepts h⟩

/-- A value half way between two of F32, and another value of F32 at the same distance. -/
theorem witness_RoundingIsToNearestEven :
    |(16777217 : Rat)| < 2 ^ 128 - 2 ^ 103 ∧ InF32 16777218 ∧
    |(16777217 : Rat) - rn32 16777217| = |(16777217 : Rat) - 16777218| ∧ (16777218 : Rat) ≠ rn32 16777217 :=
  ⟨by decide +kernel, ⟨0x4B800001#32, by decide +kernel⟩, by decide +kernel, by decide +kernel⟩

theorem witness_RoundingFixesF32 : InF32 pi32 ∧ InF32 (f32 0x00000001#32) :=
  ⟨⟨0x40490FDB#32, by decide, rfl⟩, ⟨0x00000001#32, by decide, rfl⟩⟩

/-- The extremes of the range. -/
theorem witness_DiscriminatorIsExact :
    (|(-16777216 : Int)| ≤ 2 ^ 24) ∧ Decimated.InRange { i := -1024, q := 1016 } ∧ Decimated.InRange { i := 1016, q := -1024 } := by
  unfold Decimated.InRange; decide

/-- A transition whose ratio is not 0, and eight of them. -/
theorem witness_DatapathStaysNormal :
    (∀ _t : Nat, Decimated.InRange { i := -1024, q := 1016 } ∧ Decimated.InRange { i := 1016, q := -1024 }) ∧ 8 ≤ 8 :=
  ⟨fun _ => witness_DiscriminatorIsExact.2, le_rfl⟩

theorem witness_ArctangentOnTheAxes : (0 : Rat) ≤ 0 ∧ (-1 : Rat) < 0 ∧ (0 : Rat) < 1 := by decide

theorem witness_ArctangentSymmetries : (-1 : Rat) ≠ 0 ∧ (0 : Rat) ≤ 0 ∧ (-1 : Rat) < 0 ∧ (0 : Rat) < 3 ∧ (0 : Rat) < 1 / 2 := by
  decide +kernel

theorem witness_JumpAtTheDiagonal : (0 : Rat) < 1 / 2 ^ 21 := by decide +kernel

theorem witness_AngleRange : (-2097152 : Rat) < 0 ∧ |(-2097152 : Int)| ≤ 2 ^ 21 ∧ |(-1 : Int)| ≤ 2 ^ 21 := by decide

/-- The two ends of the range of the ratio, and the least ratio of the CORE. -/
theorem witness_PolynomialBounds :
    (InF32 0 ∧ (0 : Rat) ≤ 0) ∧ (InF32 1 ∧ (0 : Rat) ≤ 1 ∧ (1 : Rat) ≤ 1) ∧
    (InF32 (1 / 2 ^ 21) ∧ (1 : Rat) / 2 ^ 21 ≤ 1 / 2 ^ 21) ∧ atanPoly 0 = 0 :=
  ⟨⟨⟨0x00000000#32, by decide +kernel⟩, by decide⟩, ⟨⟨0x3F800000#32, by decide +kernel⟩, by decide, by decide⟩,
    ⟨⟨0x35000000#32, by decide +kernel⟩, by decide +kernel⟩, by decide +kernel⟩

theorem witness_SumOfAnglesRange : ∀ t, t < 8 → |(fun _ => -pi32 : Nat → Rat) t| ≤ pi32 := by decide +kernel

theorem witness_ScaleLaws :
    (4095#16).toNat ≤ (4096#16).toNat ∧ (32768#16).toNat = 2 ^ 15 * (1#16).toNat := by decide

theorem witness_TruncationIsTowardZero :
    |f32 0xC1C90FDA#32| ≤ f32 0x41C90FDA#32 ∧ 0 ≤ gain (f32 0x41C90FDA#32) (scale 65535#16) ∧
    gain (f32 0xC1C90FDA#32) (scale 1#16) < 0 := by decide +kernel

theorem witness_NoWrapUpToTheDefaultFactor :
    |f32 0x41C90FDA#32| ≤ f32 0x41C90FDA#32 ∧ (4096#16).toNat ≤ 4096 ∧ constant.volf.toNat ≤ 4096 ∧
    constant.accepts 256#24 ∧ 1 < lenBlocks 256#24 ∧
    exec (.process 256#24) constant = .next (constant.processed 2) :=
  ⟨by decide +kernel, by decide, by decide, accepts_256, by decide, execProcess_of_accepts accepts_256⟩

theorem witness_DoublingTheFactor :
    (8192#16).toNat = 2 * (4096#16).toNat ∧ (1 : Rat) / 2 ^ 45 ≤ |f32 0xBF49028A#32| := by decide +kernel

theorem witness_RegisterWindow : small.running = none := rfl

theorem witness_HostMayDoExactlyTheTable :
    HostTx.allowed small (.wribuf 255 [1#8]) = true ∧ HostTx.allowed small (.wribuf 256 [1#8]) = false ∧
    HostTx.allowed busySmall (.rdreg 4) = true ∧ HostTx.allowed busySmall (.rdreg 8) = false := by decide

/-- The first address outside each memory, the first reserved offset, a misaligned one. -/
theorem witness_ReservedAccessesStop :
    small.running = none ∧ 24 ≤ 24 ∧ 2 % 4 ≠ 0 ∧ small.ibufBytes ≤ 256 ∧ small.ibufBytes < 255 + [1#8, 2#8].length ∧
    small.obufBytes ≤ 4 ∧ 3 % 2 ≠ 0 ∧ 4 % 2 = 0 := by decide

/-- A write that ends at the last byte of `IBUF`, and a read of that byte. -/
theorem witness_WribufWritesItsBytes :
    small.running = none ∧ 254 + [1#8, 2#8].length ≤ small.ibufBytes ∧ 255 < small.ibufBytes := by decide

theorem witness_ObufIsLittleEndian : small.running = none ∧ 2 * 1 + 1 < small.obufBytes := by decide

theorem witness_HardwareResetRestoresTheRegisters :
    ({ busySmall with schedule := [.host .hreset] } : State).schedule = .host .hreset :: [] := rfl

theorem small_inv : small.Inv where
  ibuf_wf := rfl
  obuf_wf := rfl
  ibuf_within := by simp [small, State.reset, Memory.Within]
  obuf_within := by simp [small, State.reset, Memory.Within]
  carryI_range := by unfold InCarryRange; decide
  carryQ_range := by unfold InCarryRange; decide
  ocount_fits := by decide
  fault_explains := by decide

theorem witness_EveryStepKeepsTheInvariant :
    small.Inv ∧ step small = .next small ∧
    step { small with running := some 0#32 } = .next { small with errcode := .illegalCmd, fault := true } ∧
    step { small with schedule := [.host (.wribuf 0 [1#8])] } = .next { small with ibuf := [(0, 1#8)] } :=
  ⟨small_inv, rfl, rfl, rfl⟩

/-- The two ends of the range, at the two ends of the range of bits. -/
theorem witness_CarryoverFitsElevenBits :
    small.Inv ∧ InCarryRange 0xFFFFFC00#32 ∧ InCarryRange 1016#32 ∧ 11 ≤ 11 ∧ 11 ≤ 31 ∧ 31 < 32 :=
  ⟨small_inv, by unfold InCarryRange; decide, by unfold InCarryRange; decide, by decide, by decide, by decide⟩

theorem witness_OnlyTheHostStopsTheMachine :
    let s : State := { small with schedule := [.host (.rdreg 0x18)] }
    s.schedule = .host (.rdreg 0x18) :: [] ∧ HostTx.allowed s (.rdreg 0x18) = false := ⟨rfl, by decide⟩

/-- A state that a run reaches by a rejected command. -/
theorem witness_ReachedStatesHaveTheInvariant :
    Reachable (State.start 1 [.host (.wrcmd 0#32)]) ∧
    Reachable ((((State.start 1 [.host (.wrcmd 0#32)]).setSchedule []).accept 0#32).reject .illegalCmd) :=
  ⟨.start 1 _, .step (.step (.start 1 [.host (.wrcmd 0#32)]) rfl) rfl⟩

end Sys2Proof.Tests
end

section
/-! PROOFS of the family 00_scope.md: the constants of R15. Each literal rounds to its word because it lies in a known binade and
less than half a unit in the last place from the word's value; `PI32` and `HALFPI32` are compared with the real π by one
bracket of the excess of `PI32`. -/

namespace Sys2Proof.Machine

/-! ### Rounding in a known binade (R11) -/

/-- The integer that R11 rounds to is the one that is strictly nearest. -/
theorem roundHalfEven_eq_of_close {k : Int} {n : Rat} (h : |n - k| < 1 / 2) : roundHalfEven n = k := by
  have hlt : |((roundHalfEven n - k : Int) : Rat)| < 1 := by
    push_cast
    linarith [abs_sub_le (roundHalfEven n : Rat) n k, roundHalfEven_near n]
  have hzero : roundHalfEven n - k = 0 := Int.abs_lt_one_iff.mp (by exact_mod_cast hlt)
  omega

theorem floorLog2_eq_of_binade {q : Rat} {e : Int} (hlow : (2 : Rat) ^ e ≤ q) (hhigh : q < (2 : Rat) ^ (e + 1)) :
    floorLog2 q = e := by
  have hq : 0 < q := (two_zpow_pos e).trans_le hlow
  have h1 : floorLog2 q < e + 1 := (floorLog2_lt_iff hq _).mpr hhigh
  have h2 : ¬ floorLog2 q < e := fun h => absurd ((floorLog2_lt_iff hq e).mp h) (not_lt.mpr hlow)
  omega

theorem ulpOf_eq_of_binade {q : Rat} {e : Int} (he : -126 ≤ e) (hlow : (2 : Rat) ^ e ≤ q)
    (hhigh : q < (2 : Rat) ^ (e + 1)) : ulpOf q = (2 : Rat) ^ (e - 23) := by
  have hq : 0 < q := (two_zpow_pos e).trans_le hlow
  rw [ulpOf, roundExponent, abs_of_pos hq, floorLog2_eq_of_binade hlow hhigh, max_eq_left he]

/-- R11 in a known binade: a value less than half an ulp from a multiple of the ulp rounds to that multiple. -/
theorem rn32_eq_of_close {q : Rat} {e m : Int} (he : -126 ≤ e) (hlow : (2 : Rat) ^ e ≤ q) (hhigh : q < (2 : Rat) ^ (e + 1))
    (hclose : |q - m * (2 : Rat) ^ (e - 23)| < (2 : Rat) ^ (e - 23) / 2) : rn32 q = m * (2 : Rat) ^ (e - 23) := by
  have hu := two_zpow_pos (e - 23)
  have hquot : |q / (2 : Rat) ^ (e - 23) - m| < 1 / 2 := by
    rwa [div_sub' hu.ne', abs_div, abs_of_pos hu, div_lt_iff₀ hu, mul_comm _ (m : Rat), one_div_mul_eq_div]
  rw [rn32_of_pos ((two_zpow_pos e).trans_le hlow), ulpOf_eq_of_binade he hlow hhigh, roundHalfEven_eq_of_close hquot]

/-! ### The coefficients (R15) -/

theorem rn32_literal_C0 : rn32 (-3276227640 / 10000000000) = polyC0 := by
  have h := rn32_eq_of_close (q := 3276227640 / 10000000000) (e := -2) (m := 10993196)
    (by norm_num) (by norm_num) (by norm_num) (by norm_num [abs_lt])
  rw [neg_div, rn32_neg, h, polyC0_eq]; norm_num

theorem rn32_literal_C1 : rn32 (1593142200 / 10000000000) = polyC1 := by
  have h := rn32_eq_of_close (q := 1593142200 / 10000000000) (e := -3) (m := 10691396)
    (by norm_num) (by norm_num) (by norm_num) (by norm_num [abs_lt])
  rw [h, polyC1_eq]; norm_num

theorem rn32_literal_C2 : rn32 (-464964749 / 10000000000) = polyC2 := by
  have h := rn32_eq_of_close (q := 464964749 / 10000000000) (e := -5) (m := 12481302)
    (by norm_num) (by norm_num) (by norm_num) (by norm_num [abs_lt])
  rw [neg_div, rn32_neg, h, polyC2_eq]; norm_num

/-! ### The two circle constants (R15) -/

theorem halfPi32_eq_half : halfPi32 = pi32 / 2 := by rw [halfPi32_eq, pi32_eq]; norm_num

/-- `PI32` exceeds the real π by 8.742e-8 to 8.743e-8. -/
theorem pi32_excess : 8742 / 10 ^ 11 < (pi32 : ℝ) - Real.pi ∧ (pi32 : ℝ) - Real.pi < 8743 / 10 ^ 11 := by
  have hlow := Real.pi_gt_d20
  have hhigh := Real.pi_lt_d20
  rw [pi32_eq]
  push_cast
  constructor <;> linarith

theorem pi32_near_pi : |(pi32 : ℝ) - Real.pi| < 1 / 2 ^ 23 := by
  obtain ⟨hlow, hhigh⟩ := pi32_excess
  rw [abs_lt]; constructor <;> linarith

theorem pi32_excess_near : |(pi32 : ℝ) - Real.pi - 874 / 10 ^ 10| < 1 / 10 ^ 10 := by
  obtain ⟨hlow, hhigh⟩ := pi32_excess
  rw [abs_lt]; constructor <;> linarith

theorem halfPi32_near_half_pi : |(halfPi32 : ℝ) - Real.pi / 2| < 1 / 2 ^ 24 := by
  have hhalf : (halfPi32 : ℝ) - Real.pi / 2 = (pi32 - Real.pi) / 2 := by rw [halfPi32_eq_half]; push_cast; ring
  rw [hhalf, abs_div, abs_two]
  linarith [pi32_near_pi]

/-- Settles O30: the literals by `rn32_eq_of_close`, the comparisons with π by `pi32_excess`. -/
theorem constantsAreNearest : Obligations.ConstantsAreNearest := by
  refine ⟨⟨rn32_literal_C0, rfl, ?_⟩, ⟨rn32_literal_C1, rfl, ?_⟩, ⟨rn32_literal_C2, rfl, ?_⟩, ⟨rfl, ?_, pi32_near_pi⟩,
    ⟨rfl, ?_, halfPi32_near_half_pi⟩, halfPi32_eq_half, ?_, pi32_excess_near⟩
  · rw [polyC0_eq]; norm_num [abs_lt]
  · rw [polyC1_eq]; norm_num [abs_lt]
  · rw [polyC2_eq]; norm_num [abs_lt]
  · rw [pi32_eq]; norm_num
  · rw [halfPi32_eq]; norm_num
  · linarith [pi32_excess.1]

end Sys2Proof.Machine
end


section
/-! PROOFS of the family 30_encoding.md: the decoder of R91 on the value of the word. A field of a word is a quotient and a
remainder of its value; the four branches of the decoder are read off once (`decode_cases`), and each outcome is told from
the other three by the fields that name it. -/

namespace Sys2Proof

/-! ### Fields of a word as numbers (R81, R85) -/

/-- The bits `w[start+len-1:start]` hold the number that division and remainder pick out of the value of the word. -/
theorem extractLsb'_eq_iff (w : Word) (start len : Nat) (v : BitVec len) :
    w.extractLsb' start len = v ↔ w.toNat / 2 ^ start % 2 ^ len = v.toNat := by
  rw [← BitVec.toNat_inj, BitVec.extractLsb'_toNat, Nat.shiftRight_eq_div_pow]

/-- A field at the low end of the word is a remainder alone. -/
theorem extractLsb'_zero_eq_iff (w : Word) (len : Nat) (v : BitVec len) :
    w.extractLsb' 0 len = v ↔ v.toNat = w.toNat % 2 ^ len := by
  rw [extractLsb'_eq_iff, pow_zero, Nat.div_one, eq_comm]

/-- `OP` is the top of the word, so that no remainder is taken. -/
theorem opField_eq_iff (w : Word) (op : BitVec 4) : opField w = op ↔ w.toNat / 2 ^ 28 = op.toNat := by
  have htop : w.toNat / 2 ^ 28 < 2 ^ 4 := Nat.div_lt_of_lt_mul w.isLt
  rw [opField, extractLsb'_eq_iff, Nat.mod_eq_of_lt htop]

/-! ### The three patterns (R82 to R84) -/

/-- R82: the words of RESET. -/
def ResetPattern (w : Word) : Prop := w.toNat / 2 ^ 28 = 1 ∧ w.toNat % 2 ^ 28 = 0

/-- R83: the words of SETVOL, whatever the factor. -/
def SetvolPattern (w : Word) : Prop := w.toNat / 2 ^ 28 = 2 ∧ w.toNat / 2 ^ 16 % 2 ^ 12 = 0

/-- R84: the words of PROCESS, whatever the length. -/
def ProcessPattern (w : Word) : Prop := w.toNat / 2 ^ 28 = 3 ∧ w.toNat / 2 ^ 24 % 2 ^ 4 = 0

theorem resetPattern_iff (w : Word) : ResetPattern w ↔ opField w = 1#4 ∧ w.extractLsb' 0 28 = 0#28 := by
  rw [ResetPattern, opField_eq_iff, extractLsb'_zero_eq_iff, eq_comm (a := w.toNat % 2 ^ 28)]; rfl

theorem setvolPattern_iff (w : Word) : SetvolPattern w ↔ opField w = 2#4 ∧ w.extractLsb' 16 12 = 0#12 := by
  rw [SetvolPattern, opField_eq_iff, extractLsb'_eq_iff]; rfl

theorem processPattern_iff (w : Word) : ProcessPattern w ↔ opField w = 3#4 ∧ w.extractLsb' 24 4 = 0#4 := by
  rw [ProcessPattern, opField_eq_iff, extractLsb'_eq_iff]; rfl

theorem ResetPattern.not_setvol {w : Word} (h : ResetPattern w) : ¬ SetvolPattern w :=
  fun h' => absurd (h.1.symm.trans h'.1) (by decide)

theorem ResetPattern.not_process {w : Word} (h : ResetPattern w) : ¬ ProcessPattern w :=
  fun h' => absurd (h.1.symm.trans h'.1) (by decide)

theorem SetvolPattern.not_process {w : Word} (h : SetvolPattern w) : ¬ ProcessPattern w :=
  fun h' => absurd (h.1.symm.trans h'.1) (by decide)

/-! ### The decoder (R91) -/

/-- All that the decoder can answer: the command of the pattern that the word has, an error where it has none. -/
theorem decode_cases (w : Word) :
    (ResetPattern w ∧ decode w = .ok .reset) ∨
    (SetvolPattern w ∧ decode w = .ok (.setvol (w.extractLsb' 0 16))) ∨
    (ProcessPattern w ∧ decode w = .ok (.process (w.extractLsb' 0 24))) ∨
    ((¬ ResetPattern w ∧ ¬ SetvolPattern w ∧ ¬ ProcessPattern w) ∧ ∃ why, decode w = .error why) := by
  rw [resetPattern_iff, setvolPattern_iff, processPattern_iff]
  by_cases h1 : opField w = 1#4
  · by_cases h0 : w.extractLsb' 0 28 = 0#28 <;> simp [decode, h1, h0]
  by_cases h2 : opField w = 2#4
  · by_cases h0 : w.extractLsb' 16 12 = 0#12 <;> simp [decode, h2, h0]
  by_cases h3 : opField w = 3#4
  · by_cases h0 : w.extractLsb' 24 4 = 0#4 <;> simp [decode, h3, h0]
  · simp [decode, h1, h2, h3]

theorem decode_eq_reset_iff (w : Word) : decode w = .ok .reset ↔ ResetPattern w := by
  obtain ⟨hp, hd⟩ | ⟨hp, hd⟩ | ⟨hp, hd⟩ | ⟨⟨hr, -, -⟩, why, hd⟩ := decode_cases w
  · simp [hd, hp]
  · have hr : ¬ ResetPattern w := fun hr => hr.not_setvol hp
    simp [hd, hr]
  · have hr : ¬ ResetPattern w := fun hr => hr.not_process hp
    simp [hd, hr]
  · simp [hd, hr]

theorem decode_eq_setvol_iff (w : Word) (factor : BitVec 16) :
    decode w = .ok (.setvol factor) ↔ SetvolPattern w ∧ factor.toNat = w.toNat % 2 ^ 16 := by
  rw [← extractLsb'_zero_eq_iff]
  obtain ⟨hp, hd⟩ | ⟨hp, hd⟩ | ⟨hp, hd⟩ | ⟨⟨-, hs, -⟩, why, hd⟩ := decode_cases w
  · simp [hd, hp.not_setvol]
  · simp [hd, hp]
  · have hs : ¬ SetvolPattern w := fun hs => hs.not_process hp
    simp [hd, hs]
  · simp [hd, hs]

theorem decode_eq_process_iff (w : Word) (len : BitVec 24) :
    decode w = .ok (.process len) ↔ ProcessPattern w ∧ len.toNat = w.toNat % 2 ^ 24 := by
  rw [← extractLsb'_zero_eq_iff]
  obtain ⟨hp, hd⟩ | ⟨hp, hd⟩ | ⟨hp, hd⟩ | ⟨⟨-, -, hn⟩, why, hd⟩ := decode_cases w
  · simp [hd, hp.not_process]
  · simp [hd, hp.not_process]
  · simp [hd, hp]
  · simp [hd, hn]

/-- R86: the illegal words. -/
theorem decode_eq_error_iff (w : Word) :
    (∃ why, decode w = .error why) ↔ ¬ ResetPattern w ∧ ¬ SetvolPattern w ∧ ¬ ProcessPattern w := by
  obtain ⟨hp, hd⟩ | ⟨hp, hd⟩ | ⟨hp, hd⟩ | ⟨hnone, why, hd⟩ := decode_cases w
  · simp [hd, hp]
  · simp [hd, hp]
  · simp [hd, hp]
  · exact iff_of_true ⟨why, hd⟩ hnone

/-- Settles O3, outcome by outcome: each is one of the four cases of `decode_cases`, which exclude each other. -/
theorem decodeFollowsTheFields : Obligations.DecodeFollowsTheFields := fun w =>
  ⟨decode_eq_reset_iff w, fun factor => (decode_eq_setvol_iff w factor).trans and_assoc,
    fun len => (decode_eq_process_iff w len).trans and_assoc, decode_eq_error_iff w⟩

end Sys2Proof
end

section
/-! PROOFS of the family 41_decimator.md: the range of stage 2. Rounding is odd and monotonic, so the running sum of angles that
are bounded by `b` stays, turn by turn, under the running sum of `b` itself; for `PI32` that sum is one evaluation. -/

namespace Sys2Proof.Machine

/-! ### Rounding under a bound that need not be in F32 (R11) -/

theorem abs_rn32_le_rn32 {q b : Rat} (h : |q| ≤ b) : |rn32 q| ≤ rn32 b := by
  obtain ⟨hlow, hhigh⟩ := abs_le.mp h
  refine abs_le.mpr ⟨?_, rn32_mono hhigh⟩
  rw [← rn32_neg]
  exact rn32_mono hlow

/-! ### The running sum (R114) -/

theorem abs_dec2Add_le {acc ang accBound angBound : Rat} (hacc : |acc| ≤ accBound) (hang : |ang| ≤ angBound) :
    |dec2Add acc ang| ≤ dec2Add accBound angBound :=
  abs_rn32_le_rn32 ((abs_add_le acc ang).trans (add_le_add hacc hang))

/-- R115, for every number of additions and every bound of the angles. -/
theorem abs_runningSum_le {ang : Nat → Rat} {b : Rat} (n : Nat) (h : ∀ t, t < n → |ang t| ≤ b) :
    |forTo n (fun t acc => dec2Add acc (ang t)) 0| ≤ forTo n (fun _ acc => dec2Add acc b) 0 := by
  induction n with
  | zero => simp
  | succ n ih =>
    rw [forTo_succ, forTo_succ]
    exact abs_dec2Add_le (ih fun t ht => h t (by omega)) (h n (by omega))

theorem abs_dec2_le {ang : Nat → Rat} {b : Rat} (h : ∀ t, t < 8 → |ang t| ≤ b) : |dec2 ang| ≤ dec2 fun _ => b :=
  abs_runningSum_le 8 h

/-- The value of R115: eight additions of `PI32`, evaluated. -/
theorem dec2_pi32 : (dec2 fun _ => pi32) = f32 0x41C90FDA#32 := by decide +kernel

/-- Settles O38: the bound by `abs_dec2_le`, which eight angles of `PI32` reach by `dec2_pi32`. -/
theorem sumOfAnglesRange : Obligations.SumOfAnglesRange :=
  ⟨fun _ hang => dec2_pi32 ▸ abs_dec2_le hang, dec2_pi32⟩

end Sys2Proof.Machine
end

section
/-! PROOFS of the family 42_discriminator.md: the bounds and the exactness of the discriminator. A product of two components
is bounded by the corners of the square that they range over; a sum or difference of two such products stays below 2^24,
where every integer is in F32, so that each rounded operation of R122 returns its exact value. -/

namespace Sys2Proof.Machine

/-! ### Rounded operations on small integers (R11, R12) -/

theorem fadd_intCast {m n : Int} (h : |m + n| ≤ 2 ^ 24) : fadd m n = (m + n : Int) := by
  rw [fadd, ← Int.cast_add, rn32_intCast h]

theorem fsub_intCast {m n : Int} (h : |m - n| ≤ 2 ^ 24) : fsub m n = (m - n : Int) := by
  rw [fsub, ← Int.cast_sub, rn32_intCast h]

theorem fmul_intCast {m n : Int} (h : |m * n| ≤ 2 ^ 24) : fmul m n = (m * n : Int) := by
  rw [fmul, ← Int.cast_mul, rn32_intCast h]

/-! ### One product (R122) -/

/-- The distances of `a` and `b` from the ends of their range are not negative. The lower bound is a positive combination of the
two products of distances from the same end; the upper one, of the two products of distances from different ends and of
`-2048 ≤ a + b`. -/
theorem component_mul_bounds {a b : Int} (ha : -1024 ≤ a ∧ a ≤ 1016) (hb : -1024 ≤ b ∧ b ≤ 1016) :
    -1040384 ≤ a * b ∧ a * b ≤ 1048576 := by
  obtain ⟨ha0, ha1⟩ := ha
  obtain ⟨hb0, hb1⟩ := hb
  have hlowlow := mul_nonneg (show 0 ≤ a + 1024 by omega) (show 0 ≤ b + 1024 by omega)
  have hhighhigh := mul_nonneg (show 0 ≤ 1016 - a by omega) (show 0 ≤ 1016 - b by omega)
  have hlowhigh := mul_nonneg (show 0 ≤ a + 1024 by omega) (show 0 ≤ 1016 - b by omega)
  have hhighlow := mul_nonneg (show 0 ≤ 1016 - a by omega) (show 0 ≤ b + 1024 by omega)
  constructor <;> linarith

theorem fmul_component {a b : Int} (ha : -1024 ≤ a ∧ a ≤ 1016) (hb : -1024 ≤ b ∧ b ≤ 1016) :
    fmul (i2f a) (i2f b) = (a * b : Int) := by
  obtain ⟨hlow, hhigh⟩ := component_mul_bounds ha hb
  rw [i2f_of_small (abs_le.mpr ⟨by omega, by omega⟩), i2f_of_small (abs_le.mpr ⟨by omega, by omega⟩),
    fmul_intCast (abs_le.mpr ⟨by omega, by omega⟩)]

/-! ### The two outputs (R120, R122) -/

theorem discX_bounds {old new : Decimated} (ho : old.InRange) (hn : new.InRange) :
    -2080768 ≤ discX old new ∧ discX old new ≤ 2097152 := by
  obtain ⟨hi0, hi1⟩ := component_mul_bounds ho.1 hn.1
  obtain ⟨hq0, hq1⟩ := component_mul_bounds ho.2 hn.2
  rw [discX]
  constructor <;> linarith

theorem discY_bounds {old new : Decimated} (ho : old.InRange) (hn : new.InRange) :
    -2088960 ≤ discY old new ∧ discY old new ≤ 2088960 := by
  obtain ⟨hi0, hi1⟩ := component_mul_bounds ho.1 hn.2
  obtain ⟨hq0, hq1⟩ := component_mul_bounds ho.2 hn.1
  rw [discY]
  constructor <;> linarith

theorem abs_discX_le {old new : Decimated} (ho : old.InRange) (hn : new.InRange) : |discX old new| ≤ 2 ^ 21 := by
  obtain ⟨hlow, hhigh⟩ := discX_bounds ho hn
  exact abs_le.mpr ⟨by omega, by omega⟩

theorem abs_discY_le {old new : Decimated} (ho : old.InRange) (hn : new.InRange) : |discY old new| ≤ 2 ^ 21 := by
  obtain ⟨hlow, hhigh⟩ := discY_bounds ho hn
  exact abs_le.mpr ⟨by omega, by omega⟩

theorem i2f_discX {old new : Decimated} (ho : old.InRange) (hn : new.InRange) : i2f (discX old new) = discX old new :=
  i2f_of_small ((abs_discX_le ho hn).trans (by norm_num))

theorem i2f_discY {old new : Decimated} (ho : old.InRange) (hn : new.InRange) : i2f (discY old new) = discY old new :=
  i2f_of_small ((abs_discY_le ho hn).trans (by norm_num))

/-- The floating-point form of `x` (R120) and its integer form agree. -/
theorem rounded_discX {old new : Decimated} (ho : old.InRange) (hn : new.InRange) :
    fadd (fmul (i2f old.i) (i2f new.i)) (fmul (i2f old.q) (i2f new.q)) = discX old new := by
  rw [fmul_component ho.1 hn.1, fmul_component ho.2 hn.2]
  exact fadd_intCast ((abs_discX_le ho hn).trans (by norm_num))

/-- The floating-point form of `y` (R120) and its integer form agree. -/
theorem rounded_discY {old new : Decimated} (ho : old.InRange) (hn : new.InRange) :
    fsub (fmul (i2f old.i) (i2f new.q)) (fmul (i2f old.q) (i2f new.i)) = discY old new := by
  rw [fmul_component ho.1 hn.2, fmul_component ho.2 hn.1]
  exact fsub_intCast ((abs_discY_le ho hn).trans (by norm_num))

/-- Settles O32: the bounds from `component_mul_bounds`, the exactness from `rn32_intCast`; each bound is reached at corners of
the range. -/
theorem discriminatorIsExact : Obligations.DiscriminatorIsExact := by
  refine ⟨fun _ hn => i2f_of_small hn,
    fun a b ha hb => ⟨component_mul_bounds ha hb, (fmul_component ha hb).trans (Int.cast_mul a b)⟩,
    fun old new ho hn => ⟨discX_bounds ho hn, discY_bounds ho hn, i2f_discX ho hn, i2f_discY ho hn, rounded_discX ho hn,
      rounded_discY ho hn⟩,
    ⟨⟨-1024, -1024⟩, ⟨1016, 1016⟩, ?_⟩, ⟨⟨-1024, -1024⟩, ⟨-1024, -1024⟩, ?_⟩, ⟨⟨-1024, -1024⟩, ⟨-1024, 1016⟩, ?_⟩,
    ⟨⟨-1024, -1024⟩, ⟨1016, -1024⟩, ?_⟩⟩ <;> (unfold Decimated.InRange; decide)

end Sys2Proof.Machine
end

section
/-! PROOFS of the family 43_arctangent.md: the polynomial, the axes, the diagonals and the range. The correction steps of R135 to
R137 act on the ratio of R132 alone, so each statement is a fact about that ratio (0 on an axis, 1 on a diagonal, at least
2^-21 for the CORE's integers off the axes) carried through the corrections. -/

namespace Sys2Proof.Machine

/-! ### Rounding of F32 and of tiny values (R10, R11) -/

theorem rn32_of_inF32 {q : Rat} (h : InF32 q) : rn32 q = q := by
  obtain ⟨m, e, hm, he, -, rfl⟩ := h.grid
  exact rn32_grid hm.le he

/-- R11: a value below half the least subnormal rounds to 0. -/
theorem rn32_eq_zero_of_tiny {q : Rat} (h0 : 0 ≤ q) (h : q < (2 : Rat) ^ (-150 : Int)) : rn32 q = 0 := by
  rcases h0.eq_or_lt with rfl | hq
  · exact rn32_zero
  have hexp : floorLog2 q < -150 := (floorLog2_lt_iff hq _).mpr h
  have hulp : ulpOf q = (2 : Rat) ^ (-149 : Int) := by
    rw [ulpOf, roundExponent, abs_of_pos hq, max_eq_right (by omega)]; norm_num
  have hround : roundHalfEven (q / ulpOf q) = 0 := by
    refine roundHalfEven_eq_of_close ?_
    rw [hulp, Int.cast_zero, sub_zero, abs_of_pos (div_pos hq (two_zpow_pos _)), div_lt_iff₀ (two_zpow_pos _)]
    exact h.trans_eq (by norm_num)
  rw [rn32_of_pos hq, hround, Int.cast_zero, zero_mul]

/-- A power of two from the least subnormal on is left as it is. -/
theorem rn32_two_zpow {e : Int} (he : -149 ≤ e) : rn32 ((2 : Rat) ^ e) = (2 : Rat) ^ e := by
  simpa using rn32_grid (m := 1) (by norm_num) he

/-- R132: the least ratio of the CORE is in F32. -/
theorem rn32_least_ratio : rn32 (1 / 2 ^ 21) = 1 / 2 ^ 21 := by
  simpa using rn32_two_zpow (e := -21) (by norm_num)

/-! ### The values that the rules list -/

/-- The values of two words, `a(1)` (R133), and the points of R135, R138 and R142, evaluated together. -/
theorem listed_values :
    (f32 0x3F49028A#32 = 6586693 / 8388608 ∧ f32 0xC0490FD9#32 = -13176793 / 4194304) ∧
    atanPoly 1 = f32 0x3F49028A#32 ∧
    fsub halfPi32 (f32 0x3F49028A#32) = f32 0x3F491D2C#32 ∧
    atan2a 2097152 2097151 = f32 0x3F490286#32 ∧ atan2a 2097151 2097152 = f32 0x3F491D30#32 ∧
    atan2a (-2097152) (-1) = f32 0xC0490FD9#32 := by decide +kernel

/-! ### The polynomial (R133, R134) -/

theorem atanPoly_zero : atanPoly 0 = 0 := by simp [atanPoly, fmul, fma]

theorem atanPoly_one : atanPoly 1 = f32 0x3F49028A#32 := by
  obtain ⟨-, hone, -⟩ := listed_values
  exact hone

/-- The square of a ratio below 2^-100 rounds to 0, so that `u` is 0 and the chain returns the ratio. -/
theorem atanPoly_of_tiny {r : Rat} (hr : rn32 r = r) (h0 : 0 ≤ r) (h : r < 1 / 2 ^ 100) : atanPoly r = r := by
  have hs : fmul r r = 0 := by
    refine rn32_eq_zero_of_tiny (mul_nonneg h0 h0) ?_
    calc r * r ≤ 1 / 2 ^ 100 * (1 / 2 ^ 100) := by gcongr
      _ < (2 : Rat) ^ (-150 : Int) := by norm_num
  simp only [atanPoly, hs]
  simp [fmul, fma, hr]

/-- R134: `0.67*r <= a` for every ratio of F32, subnormals included. -/
theorem atanPoly_ge_of_rn32_eq {r : Rat} (hr : rn32 r = r) (h0 : 0 ≤ r) (h1 : r ≤ 1) : 67 / 100 * r ≤ atanPoly r := by
  rcases lt_or_ge r (1 / 2 ^ 100) with htiny | hnormal
  · rw [atanPoly_of_tiny hr h0 htiny]; linarith
  · exact atanPoly_ge hnormal h1

/-- Just below 2^-21, closer than half an ulp of it, a value rounds to 2^-21. -/
theorem rn32_below_least_ratio : rn32 (1 / 2 ^ 21 - 1 / 2 ^ 60) = 1 / 2 ^ 21 := by
  have h := rn32_eq_of_close (q := 1 / 2 ^ 21 - 1 / 2 ^ 60) (e := -22) (m := 2 ^ 24)
    (by norm_num) (by norm_num) (by norm_num) (by norm_num [abs_lt])
  rw [h]; norm_num

/-- The polynomial of a ratio not below 2^-21, the least of the CORE (R132), is not below 2^-21: for ratios up to 2^-20 the
cubic term is less than half an ulp of 2^-21, and beyond that `0.67*r` is large enough. -/
theorem atanPoly_ge_least_ratio {r : Rat} (h0 : 1 / 2 ^ 21 ≤ r) (h1 : r ≤ 1) : 1 / 2 ^ 21 ≤ atanPoly r := by
  rcases le_or_gt r (1 / 2 ^ 20) with hsmall | hlarge
  · have hr : 0 ≤ r := le_trans (by norm_num) h0
    obtain ⟨⟨s0, -⟩, -, ⟨q2lo, -⟩, -⟩ := poly_chain_range hr h1
    unfold atanPoly
    simp only
    set s := fmul r r with hs
    set q2 := fma (fma polyC2 s polyC1) s polyC0
    have hgrid : rn32 (1 / 2 ^ 40) = 1 / 2 ^ 40 := by simpa using rn32_two_zpow (e := -40) (by norm_num)
    have s1 : s ≤ 1 / 2 ^ 40 := by
      refine rn32_le_of_le hgrid ?_
      calc r * r ≤ 1 / 2 ^ 20 * (1 / 2 ^ 20) := by gcongr
        _ = 1 / 2 ^ 40 := by norm_num
    have hq2 : -1 ≤ q2 := le_trans (by rw [polyC0_eq]; norm_num) q2lo
    have hu : -(1 / 2 ^ 40) ≤ fmul q2 s := le_rn32_of_le (by rw [rn32_neg, hgrid]) (by nlinarith)
    calc 1 / 2 ^ 21 = rn32 (1 / 2 ^ 21 - 1 / 2 ^ 60) := rn32_below_least_ratio.symm
      _ ≤ rn32 (fmul q2 s * r + r) := rn32_mono (by nlinarith)
  · linarith [atanPoly_ge (le_trans (by norm_num) h0) h1]

/-- The inner factor of R134 in real arithmetic, with the document's decimal coefficients. -/
noncomputable def innerFactor (s : ℝ) : ℝ :=
  s * (-3276227640 / 10 ^ 10 + s * (1593142200 / 10 ^ 10 + s * (-464964749 / 10 ^ 10)))

/-- The inner factor falls from `s` to 1: their difference has the factor `1 - s`, and the other factor is positive. -/
theorem innerFactor_one_le {s : ℝ} (h1 : s ≤ 1) : innerFactor 1 ≤ innerFactor s := by
  have hcofactor : 0 ≤ 2148050189 / 10 ^ 10 - 1128177451 / 10 ^ 10 * s + 464964749 / 10 ^ 10 * s ^ 2 := by
    linarith [sq_nonneg s]
  have hfactored : innerFactor s - innerFactor 1 =
      (1 - s) * (2148050189 / 10 ^ 10 - 1128177451 / 10 ^ 10 * s + 464964749 / 10 ^ 10 * s ^ 2) := by
    unfold innerFactor; ring
  linarith [mul_nonneg (sub_nonneg.mpr h1) hcofactor]

theorem innerFactor_bounds {s : ℝ} (h0 : 0 ≤ s) (h1 : s ≤ 1) : -2149 / 10000 < innerFactor s ∧ innerFactor s ≤ 0 := by
  constructor
  · exact lt_of_lt_of_le (by unfold innerFactor; norm_num) (innerFactor_one_le h1)
  · exact mul_nonpos_of_nonneg_of_nonpos h0 (by linarith [mul_nonneg h0 h0])

/-- Settles O37: the chain by `poly_chain_range`, the polynomial by `atanPoly_range` and `atanPoly_ge_of_rn32_eq`, the real
arithmetic by `innerFactor_bounds`. -/
theorem polynomialBounds : Obligations.PolynomialBounds := by
  refine ⟨fun r hF h0 h1 => ?_, fun s h0 h1 => innerFactor_bounds h0 h1, by norm_num⟩
  have hr := rn32_of_inF32 hF
  obtain ⟨hs, hq1, hq2, hu⟩ := poly_chain_range h0 h1
  obtain ⟨a0, a1⟩ := atanPoly_range hr h0 h1
  have hlow := atanPoly_ge_of_rn32_eq hr h0 h1
  have hC12 : 1128 / 10000 < polyC1 + polyC2 := by rw [polyC1_eq, polyC2_eq]; norm_num
  have hC01 : polyC0 + polyC1 < -168 / 1000 := by rw [polyC0_eq, polyC1_eq]; norm_num
  exact ⟨hs, ⟨hC12, hq1⟩, ⟨hq2.1, hq2.2, hC01⟩, hu, ⟨hlow, a1⟩, ⟨a0, a1.trans h1⟩, fun ha => by linarith,
    fun hleast => by linarith⟩

/-! ### The ratio and the three corrections (R132, R135 to R137) -/

/-- `r` of R130, from the inputs. -/
def octantRatio (x y : Rat) : Rat := ratio (fmin (fabs x) (fabs y)) (fmax (fabs x) (fabs y))

/-- `a1` of R130, from the inputs. -/
def octantAngle (x y : Rat) : Rat := octant (fabs x) (fabs y) (atanPoly (octantRatio x y))

theorem atan2a_eq (x y : Rat) : atan2a x y = signCorrect y (quadrant x (octantAngle x y)) := rfl

theorem fabs_eq_abs (a : Rat) : fabs a = |a| := rfl

theorem fmin_eq_min (a b : Rat) : fmin a b = min a b := by
  unfold fmin
  split_ifs with h
  · exact (min_eq_left h.le).symm
  · exact (min_eq_right (not_lt.mp h)).symm

theorem fmax_eq_max (a b : Rat) : fmax a b = max a b := by
  unfold fmax
  split_ifs with h
  · exact (max_eq_right h.le).symm
  · exact (max_eq_left (not_lt.mp h)).symm

theorem octant_of_lt {xa ya : Rat} (h : xa < ya) (a : Rat) : octant xa ya a = fsub halfPi32 a := if_pos h
theorem octant_of_le {xa ya : Rat} (h : ya ≤ xa) (a : Rat) : octant xa ya a = a := if_neg (not_lt.mpr h)
theorem quadrant_of_neg {x : Rat} (h : x < 0) (a : Rat) : quadrant x a = fsub pi32 a := if_pos h
theorem quadrant_of_nonneg {x : Rat} (h : 0 ≤ x) (a : Rat) : quadrant x a = a := if_neg (not_lt.mpr h)
theorem signCorrect_of_neg {y : Rat} (h : y < 0) (a : Rat) : signCorrect y a = -a := if_pos h
theorem signCorrect_of_nonneg {y : Rat} (h : 0 ≤ y) (a : Rat) : signCorrect y a = a := if_neg (not_lt.mpr h)

theorem octantRatio_range (x y : Rat) : 0 ≤ octantRatio x y ∧ octantRatio x y ≤ 1 :=
  ratio_range (fmin_nonneg (abs_nonneg x) (abs_nonneg y)) (fmin_le_fmax _ _)

/-! ### The axes (R139) -/

theorem ratio_zero_left (mx : Rat) : ratio 0 mx = 0 := by simp [ratio, fdiv]

theorem octantAngle_zero_right (x : Rat) : octantAngle x 0 = 0 := by
  have hmin : fmin (fabs x) (fabs 0) = 0 := by simp [fmin_eq_min, fabs]
  have hle : fabs 0 ≤ fabs x := by simp [fabs]
  rw [octantAngle, octantRatio, hmin, ratio_zero_left, atanPoly_zero, octant_of_le hle]

theorem octantAngle_zero_left {y : Rat} (hy : y ≠ 0) : octantAngle 0 y = halfPi32 := by
  have hmin : fmin (fabs 0) (fabs y) = 0 := by simp [fmin_eq_min, fabs]
  have hlt : fabs 0 < fabs y := by simpa [fabs] using hy
  rw [octantAngle, octantRatio, hmin, ratio_zero_left, atanPoly_zero, octant_of_lt hlt, fsub, sub_zero, rn32_halfPi32]

theorem atan2a_zero_right_of_nonneg {x : Rat} (hx : 0 ≤ x) : atan2a x 0 = 0 := by
  rw [atan2a_eq, signCorrect_of_nonneg le_rfl, quadrant_of_nonneg hx, octantAngle_zero_right]

theorem atan2a_zero_right_of_neg {x : Rat} (hx : x < 0) : atan2a x 0 = pi32 := by
  rw [atan2a_eq, signCorrect_of_nonneg le_rfl, quadrant_of_neg hx, octantAngle_zero_right, fsub, sub_zero, rn32_pi32]

theorem atan2a_zero_left_of_pos {y : Rat} (hy : 0 < y) : atan2a 0 y = halfPi32 := by
  rw [atan2a_eq, signCorrect_of_nonneg hy.le, quadrant_of_nonneg le_rfl, octantAngle_zero_left hy.ne']

theorem atan2a_zero_left_of_neg {y : Rat} (hy : y < 0) : atan2a 0 y = -halfPi32 := by
  rw [atan2a_eq, signCorrect_of_neg hy, quadrant_of_nonneg le_rfl, octantAngle_zero_left hy.ne]

/-- Settles O33: on an axis the ratio is 0, so that the angle is the constant of the corrections that apply. -/
theorem arctangentOnTheAxes : Obligations.ArctangentOnTheAxes :=
  ⟨atan2a_zero_right_of_nonneg le_rfl, fun _ => atan2a_zero_right_of_nonneg, fun _ => atan2a_zero_right_of_neg,
    fun _ => atan2a_zero_left_of_pos, fun _ => atan2a_zero_left_of_neg⟩

/-! ### The diagonals (R135, R142) -/

/-- On the lines `|y| = |x|` the ratio is 1 and the strict comparison of R135 does not reflect. -/
theorem octantAngle_of_abs_eq {x y : Rat} (hx : x ≠ 0) (h : |y| = |x|) : octantAngle x y = f32 0x3F49028A#32 := by
  have hone : octantRatio x y = 1 := by
    simp [octantRatio, ratio, fdiv, fmin_eq_min, fmax_eq_max, fabs, h, hx, rn32_one]
  rw [octantAngle, hone, atanPoly_one, octant_of_le (show fabs y ≤ fabs x from h.le)]

/-- `a(1)` is 2.03e-4 below the real π/4. -/
theorem octant_value_below_quarter_pi :
    |((f32 0x3F49028A#32 : Rat) : ℝ) - Real.pi / 4 + 203 / 10 ^ 6| < 1 / 10 ^ 6 := by
  obtain ⟨⟨hvalue, -⟩, -⟩ := listed_values
  have hlow := Real.pi_gt_d20
  have hhigh := Real.pi_lt_d20
  rw [hvalue, abs_lt]
  push_cast
  constructor <;> linarith

/-- Settles O36: the four diagonals by `octantAngle_of_abs_eq`; the two points beside the line and the reflected value are
evaluated. -/
theorem jumpAtTheDiagonal : Obligations.JumpAtTheDiagonal := by
  obtain ⟨-, -, hreflected, hbelow, habove, -⟩ := listed_values
  refine ⟨fun c hc => ?_, hbelow, habove, hreflected, octant_value_below_quarter_pi⟩
  have hneg : -c < 0 := neg_lt_zero.mpr hc
  refine ⟨?_, ?_, ?_, ?_⟩
  · rw [atan2a_eq, signCorrect_of_nonneg hc.le, quadrant_of_nonneg hc.le, octantAngle_of_abs_eq hc.ne' rfl]
  · rw [atan2a_eq, signCorrect_of_neg hneg, quadrant_of_nonneg hc.le, octantAngle_of_abs_eq hc.ne' (abs_neg c)]
  · rw [atan2a_eq, signCorrect_of_nonneg hc.le, quadrant_of_neg hneg, octantAngle_of_abs_eq hneg.ne (abs_neg c).symm]
  · rw [atan2a_eq, signCorrect_of_neg hneg, quadrant_of_neg hneg, octantAngle_of_abs_eq hneg.ne rfl]

/-! ### The range (R138) -/

theorem abs_atan2a_le (x y : Rat) : |atan2a x y| ≤ pi32 := by
  obtain ⟨hlow, hhigh⟩ : 0 ≤ quadrant x (octantAngle x y) ∧ quadrant x (octantAngle x y) ≤ pi32 := quadrant_range x y
  rw [atan2a_eq]
  rcases lt_or_ge y 0 with hy | hy
  · rwa [signCorrect_of_neg hy, abs_neg, abs_of_nonneg hlow]
  · rwa [signCorrect_of_nonneg hy, abs_of_nonneg hlow]

theorem atan2a_nonneg_of_nonneg (x : Rat) {y : Rat} (hy : 0 ≤ y) : 0 ≤ atan2a x y := by
  rw [atan2a_eq, signCorrect_of_nonneg hy]
  exact (quadrant_range x y).1

theorem atanPoly_octantRatio_range (x y : Rat) : 0 ≤ atanPoly (octantRatio x y) ∧ atanPoly (octantRatio x y) ≤ 1 := by
  obtain ⟨r0, r1⟩ := octantRatio_range x y
  obtain ⟨a0, a1⟩ := atanPoly_range (rn32_ratio _ _) r0 r1
  exact ⟨a0, a1.trans r1⟩

theorem octantAngle_le_halfPi32 (x y : Rat) : octantAngle x y ≤ halfPi32 := by
  obtain ⟨a0, a1⟩ := atanPoly_octantRatio_range x y
  rcases lt_or_ge (fabs x) (fabs y) with h | h
  · rw [octantAngle, octant_of_lt h]
    exact rn32_le_of_le rn32_halfPi32 (by linarith)
  · rw [octantAngle, octant_of_le h]
    exact a1.trans (by rw [halfPi32_eq]; norm_num)

/-- R132: a ratio of the CORE that is not 0 is at least 2^-21. -/
theorem octantRatio_ge_of_int {x y : Int} (hx : x ≠ 0) (hy : y ≠ 0) (hx' : |x| ≤ 2 ^ 21) (hy' : |y| ≤ 2 ^ 21) :
    1 / 2 ^ 21 ≤ octantRatio x y := by
  have hmin : (1 : Rat) ≤ fmin (fabs x) (fabs y) := by
    rw [fmin_eq_min, fabs_eq_abs, fabs_eq_abs]
    exact le_min (by exact_mod_cast Int.one_le_abs hx) (by exact_mod_cast Int.one_le_abs hy)
  have hmax : fmax (fabs x) (fabs y) ≤ (2 ^ 21 : Rat) := by
    rw [fmax_eq_max, fabs_eq_abs, fabs_eq_abs]
    exact max_le (by exact_mod_cast hx') (by exact_mod_cast hy')
  have hpos : 0 < fmax (fabs x) (fabs y) := (zero_lt_one.trans_le hmin).trans_le (fmin_le_fmax _ _)
  rw [octantRatio, ratio, if_neg hpos.ne']
  exact le_rn32_of_le rn32_least_ratio (by gcongr)

/-- Off the axes the CORE's `a1` is at least 2^-21: the polynomial is, and the reflected angle is above 0.57 (R135). -/
theorem octantAngle_ge_of_int {x y : Int} (hx : x ≠ 0) (hy : y ≠ 0) (hx' : |x| ≤ 2 ^ 21) (hy' : |y| ≤ 2 ^ 21) :
    1 / 2 ^ 21 ≤ octantAngle x y := by
  rcases lt_or_ge (fabs x) (fabs y) with h | h
  · rw [octantAngle, octant_of_lt h]
    have ha := (atanPoly_octantRatio_range x y).2
    exact le_rn32_of_le rn32_least_ratio (by rw [halfPi32_eq]; linarith)
  · rw [octantAngle, octant_of_le h]
    exact atanPoly_ge_least_ratio (octantRatio_ge_of_int hx hy hx' hy') (octantRatio_range _ _).2

/-- The least angle of the CORE lies 2^-21 above `-PI32`: two ulps. -/
theorem leastAngle_eq : f32 0xC0490FD9#32 = -(pi32 - 1 / 2 ^ 21) := by
  obtain ⟨⟨-, hvalue⟩, -⟩ := listed_values
  rw [hvalue, pi32_eq]; norm_num

theorem ulpOf_pi32 : ulpOf pi32 = 1 / 2 ^ 22 := by
  rw [ulpOf_eq_of_binade (e := 1) (by norm_num) (by norm_num [pi32_eq]) (by norm_num [pi32_eq])]; norm_num

theorem rn32_pi32_sub_two_ulps : rn32 (pi32 - 1 / 2 ^ 21) = pi32 - 1 / 2 ^ 21 := by
  have hgrid : pi32 - 1 / 2 ^ 21 = (13176793 : Int) * (2 : Rat) ^ (-22 : Int) := by rw [pi32_eq]; norm_num
  rw [hgrid, rn32_grid (by norm_num) (by norm_num)]

/-- Off the `x` axis the CORE's angle before the sign correction is at least two ulps below `PI32`. -/
theorem quadrant_octantAngle_le_of_int {x y : Int} (hy : y ≠ 0) (hx' : |x| ≤ 2 ^ 21) (hy' : |y| ≤ 2 ^ 21) :
    quadrant x (octantAngle x y) ≤ pi32 - 1 / 2 ^ 21 := by
  rcases lt_or_ge (x : Rat) 0 with hx | hx
  · rw [quadrant_of_neg hx]
    have ha := octantAngle_ge_of_int (Int.cast_lt_zero.mp hx).ne hy hx' hy'
    exact rn32_le_of_le rn32_pi32_sub_two_ulps (by linarith)
  · rw [quadrant_of_nonneg hx]
    refine (octantAngle_le_halfPi32 x y).trans ?_
    rw [halfPi32_eq, pi32_eq]; norm_num

theorem leastAngle_le_atan2a {x y : Int} (hx : |x| ≤ 2 ^ 21) (hy : |y| ≤ 2 ^ 21) : f32 0xC0490FD9#32 ≤ atan2a x y := by
  rw [leastAngle_eq]
  rcases lt_or_ge (y : Rat) 0 with hneg | hnonneg
  · rw [atan2a_eq, signCorrect_of_neg hneg]
    exact neg_le_neg (quadrant_octantAngle_le_of_int (Int.cast_lt_zero.mp hneg).ne hx hy)
  · exact le_trans (by rw [pi32_eq]; norm_num) (atan2a_nonneg_of_nonneg x hnonneg)

theorem neg_pi32_lt_leastAngle : -pi32 < f32 0xC0490FD9#32 := by rw [leastAngle_eq]; norm_num

/-- Settles O35: the closed range by `abs_atan2a_le`, the sharper one of the CORE by `leastAngle_le_atan2a`. -/
theorem angleRange : Obligations.AngleRange := by
  obtain ⟨-, -, -, -, -, hreached⟩ := listed_values
  refine ⟨fun x y => abs_le.mp (abs_atan2a_le x y),
    fun _ _ hx hy => neg_pi32_lt_leastAngle.trans_le (leastAngle_le_atan2a hx hy), fun _ _ => leastAngle_le_atan2a,
    hreached, ?_, fun _ => atan2a_zero_right_of_neg, pi32_excess_near⟩
  rw [leastAngle_eq, ulpOf_pi32]; ring

end Sys2Proof.Machine
end

section
/-! PROOFS of the family 44_output_stage.md: `SCALE` and the default factor. Rounding commutes with powers of two away from the
subnormals, which makes `SCALE` exact under doubling; rounding is monotonic, so a bound of the sum of angles and one of the factor
bound the scaled value by one product, evaluated at 4096. -/

namespace Sys2Proof.Machine

/-! ### Rounding under powers of two (R11) -/

/-- R11: a power of two passes through the rounding of 0 and of any value that is not subnormal. -/
theorem rn32_two_pow_mul {q : Rat} (h : q = 0 ∨ (2 : Rat) ^ (-126 : Int) ≤ |q|) (n : Nat) :
    rn32 (2 ^ n * q) = 2 ^ n * rn32 q := by
  rcases h with rfl | hnormal
  · simp
  induction n with
  | zero => simp
  | succ n ih =>
    have hgrow : |q| ≤ |2 ^ n * q| := by
      rw [abs_mul, abs_of_pos (by positivity : (0 : Rat) < 2 ^ n)]
      exact le_mul_of_one_le_left (abs_nonneg q) (one_le_pow₀ one_le_two)
    calc rn32 (2 ^ (n + 1) * q) = rn32 (2 * (2 ^ n * q)) := by rw [pow_succ', mul_assoc]
      _ = 2 * rn32 (2 ^ n * q) := rn32_two_mul (hnormal.trans hgrow)
      _ = 2 ^ (n + 1) * rn32 q := by rw [ih, pow_succ', mul_assoc]

/-! ### The scale (R150) -/

theorem scale_eq_rn32_div (f : BitVec 16) : scale f = rn32 (f.toNat / pi32) := by
  rw [scale, fdiv, i2f_factor]

/-- The quotient of R150 is 0 or far from the subnormals. -/
theorem factor_div_pi32_normal (k : Nat) :
    (k : Rat) / pi32 = 0 ∨ (2 : Rat) ^ (-126 : Int) ≤ |(k : Rat) / pi32| := by
  rcases k.eq_zero_or_pos with rfl | hpos
  · exact .inl (by simp)
  · refine .inr ?_
    have hpi : 0 < pi32 := by rw [pi32_eq]; norm_num
    have hk : (1 : Rat) ≤ k := by exact_mod_cast hpos
    calc (2 : Rat) ^ (-126 : Int) ≤ 1 / pi32 := by rw [pi32_eq]; norm_num
      _ ≤ k / pi32 := by gcongr
      _ ≤ |k / pi32| := le_abs_self _

theorem scale_of_two_pow_mul {n : Nat} {f g : BitVec 16} (h : g.toNat = 2 ^ n * f.toNat) : scale g = 2 ^ n * scale f := by
  have hquot : (g.toNat : Rat) / pi32 = 2 ^ n * (f.toNat / pi32) := by rw [h]; push_cast; ring
  rw [scale_eq_rn32_div, scale_eq_rn32_div, hquot, rn32_two_pow_mul (factor_div_pi32_normal f.toNat)]

/-- The values of R150, evaluated. -/
theorem scale_listed_values :
    scale 0#16 = 0 ∧ scale 1#16 = f32 0x3EA2F983#32 ∧ scale 4096#16 = f32 0x44A2F983#32 ∧
    scale 8192#16 = f32 0x4522F983#32 ∧ scale 65535#16 = f32 0x46A2F8E0#32 := by decide +kernel

/-- Settles O39: monotonic by `scale_mono`, exact under doubling by `scale_of_two_pow_mul`. -/
theorem scaleLaws : Obligations.ScaleLaws :=
  ⟨fun f => ⟨i2f_factor f, rfl⟩, fun _ _ => scale_mono, fun _ _ _ => scale_of_two_pow_mul, scale_listed_values⟩

/-! ### The scaled value (R151, R152) -/

/-- R151: bounds of the sum of angles and of the factor bound the scaled value. -/
theorem abs_gain_scale_le {acc b : Rat} {f g : BitVec 16} (hacc : |acc| ≤ b) (hfg : f.toNat ≤ g.toNat) :
    |gain acc (scale f)| ≤ gain b (scale g) := by
  refine abs_rn32_le_rn32 ?_
  rw [abs_mul, abs_of_nonneg (scale_nonneg f)]
  exact mul_le_mul hacc (scale_mono hfg) (scale_nonneg f) ((abs_nonneg acc).trans hacc)

/-- R152: truncation moves no value across an integer bound of its magnitude. -/
theorem abs_f2iTrunc_lt {v : Rat} {n : Int} (h : |v| < n) : |f2iTrunc v| < n := by
  have htrunc := (f2iTrunc_spec v).1.trans_lt h
  exact_mod_cast htrunc

/-- R153: an integer that fits 16 bits is not wrapped. -/
theorem wrap16_toInt_of_abs_le {n : Int} (h : |n| ≤ 32767) : (wrap16 n).toInt = n := by
  obtain ⟨hlow, hhigh⟩ := abs_le.mp h
  rw [wrap16, BitVec.toInt_ofInt]
  exact Int.bmod_eq_of_le (by norm_num; omega) (by norm_num; omega)

/-! ### At or below the default factor (R155) -/

/-- The values of R155: the extreme at 4096, and the wrap at 4097. -/
theorem gain_listed_values :
    (gain (f32 0x41C90FDA#32) (scale 4096#16) = f32 0x46FFFFFF#32 ∧ f32 0x46FFFFFF#32 < 32768) ∧
    scale 4097#16 = f32 0x44A303B3#32 ∧ gain (f32 0x41C90FDA#32) (scale 4097#16) = f32 0x47000800#32 ∧
    f2iTrunc (f32 0x47000800#32) = 32776 := by decide +kernel

theorem abs_f2iTrunc_gain_le {acc : Rat} {f : BitVec 16} (hacc : |acc| ≤ f32 0x41C90FDA#32) (hf : f.toNat ≤ 4096) :
    |f2iTrunc (gain acc (scale f))| ≤ 32767 := by
  obtain ⟨⟨hextreme, hbelow⟩, -⟩ := gain_listed_values
  have hgain : |gain acc (scale f)| < (32768 : Int) := by
    calc |gain acc (scale f)| ≤ gain (f32 0x41C90FDA#32) (scale 4096#16) := abs_gain_scale_le hacc hf
      _ < (32768 : Int) := by rw [hextreme]; exact_mod_cast hbelow
  exact Int.lt_add_one_iff.mp (abs_f2iTrunc_lt hgain)

theorem outputSample_toInt_of_le_default {acc : Rat} {f : BitVec 16} (hacc : |acc| ≤ f32 0x41C90FDA#32)
    (hf : f.toNat ≤ 4096) : (outputSample acc (scale f)).toInt = f2iTrunc (gain acc (scale f)) :=
  wrap16_toInt_of_abs_le (abs_f2iTrunc_gain_le hacc hf)

theorem outputSample_ne_min {acc : Rat} {f : BitVec 16} (hacc : |acc| ≤ f32 0x41C90FDA#32) (hf : f.toNat ≤ 4096) :
    outputSample acc (scale f) ≠ 0x8000#16 := by
  intro hmin
  have hbound := (abs_le.mp (abs_f2iTrunc_gain_le hacc hf)).1
  rw [← outputSample_toInt_of_le_default hacc hf, hmin] at hbound
  exact absurd hbound (by decide)

/-- R174, R115: every sample of a PROCESS, in any state, is that of a sum of 8 angles in range. -/
theorem State.sampleOf_eq_outputSample (s : State) (k : Nat) :
    ∃ acc : Rat, |acc| ≤ f32 0x41C90FDA#32 ∧ s.sampleOf k = outputSample acc (scale s.volf) :=
  ⟨_, dec2_pi32 ▸ abs_dec2_le fun _ _ => abs_atan2a_le _ _, block_out _ _ _ _⟩

theorem State.processed_sample_ne_min {s : State} {n k : Nat} (hvolf : s.volf.toNat ≤ 4096) (hk : k < n) :
    (s.processed n).sample k ≠ 0x8000#16 := by
  obtain ⟨acc, hacc, hsample⟩ := s.sampleOf_eq_outputSample k
  rw [s.processed_sample n hk, hsample]
  exact outputSample_ne_min hacc hvolf

/-- One above the default factor, eight angles of `PI32` wrap. -/
theorem outputSample_wraps_above_default : (outputSample (dec2 fun _ => pi32) (scale 4097#16)).toInt = -32760 := by
  obtain ⟨-, -, hgain, htrunc⟩ := gain_listed_values
  rw [outputSample, dec2_pi32, hgain, htrunc]
  decide

/-- Settles O41: the bound by `abs_f2iTrunc_gain_le`, and for every sample of a PROCESS by `State.processed_sample_ne_min`. -/
theorem noWrapUpToTheDefaultFactor : Obligations.NoWrapUpToTheDefaultFactor := by
  obtain ⟨⟨hextreme, -⟩, hscale, hgain, htrunc⟩ := gain_listed_values
  refine ⟨fun acc volf hacc hf => ⟨abs_f2iTrunc_gain_le hacc hf, outputSample_toInt_of_le_default hacc hf⟩, ?_, hextreme,
    hscale, dec2_pi32 ▸ hgain, htrunc, outputSample_wraps_above_default⟩
  intro s t len k hvolf haccepts hk hexec
  have hprocessed : exec (.process len) s = .next (s.processed (lenBlocks len)) := execProcess_of_accepts haccepts
  obtain rfl : s.processed (lenBlocks len) = t := Host.Outcome.next.inj (hprocessed.symm.trans hexec)
  exact State.processed_sample_ne_min hvolf hk

end Sys2Proof.Machine
end

section
/-! PROOFS of the family 45_carryover.md. A PROCESS of `n` blocks leaves in the carryover registers the very decimated sample
that block `n` of a longer PROCESS would pair with its first one (`State.processed_carry`). A second PROCESS that finds that
carryover, the factor, and the bytes from `128 * n` on in its `IBUF` therefore passes through the same blocks
(`State.Continues`). -/

namespace Sys2Proof.Machine

/-! ### The carryover as a decimated sample (R21, R161) -/

theorem State.carry_eq_iff {s t : State} : s.carry = t.carry ↔ s.carryI = t.carryI ∧ s.carryQ = t.carryQ := by
  rw [State.carry, State.carry, Decimated.mk.injEq, BitVec.toInt_inj, BitVec.toInt_inj]

theorem toInt_ofInt_of_component {n : Int} (h : -1024 ≤ n ∧ n ≤ 1016) : (BitVec.ofInt 32 n).toInt = n := by
  obtain ⟨hlow, hhigh⟩ := h
  rw [BitVec.toInt_ofInt]
  exact Int.bmod_eq_of_le (by norm_num; omega) (by norm_num; omega)

/-- R161: the registers lose nothing of the decimated sample, which fits them by R112. -/
theorem State.processed_carry (s : State) (n : Nat) : (s.processed n).carry = s.prevOf n := by
  cases n with
  | zero => exact State.carry_eq_iff.mpr s.processed_carry_zero
  | succ n =>
    obtain ⟨hi, hq⟩ := s.processed_carry_succ n
    obtain ⟨hiRange, hqRange⟩ := decimate_range (s.byteAt .ibuf) n 7
    rw [State.carry, hi, hq, toInt_ofInt_of_component hiRange, toInt_ofInt_of_component hqRange]
    rfl

/-! ### After RESET (R162, R163) -/

theorem discX_zero_left (new : Decimated) : discX ⟨0, 0⟩ new = 0 := by simp [discX]

theorem discY_zero_left (new : Decimated) : discY ⟨0, 0⟩ new = 0 := by simp [discY]

theorem i2f_zero : i2f 0 = 0 := by simp [i2f]

theorem angle_zero_left (new : Decimated) : angle ⟨0, 0⟩ new = 0 := by
  rw [angle, discX_zero_left, discY_zero_left, i2f_zero]
  exact atan2a_zero_right_of_nonneg le_rfl

theorem prevOf_zero_of_exec_reset {s r : State} (h : exec .reset s = .next r) : r.prevOf 0 = ⟨0, 0⟩ := by
  obtain rfl : (s.setCarry 0#32 0#32).complete = r := Host.Outcome.next.inj h
  rfl

/-- Settles O25: with the carryover 0 that RESET leaves, both products of the discriminator are 0, and so is the angle. -/
theorem firstAngleAfterResetIsZero : Obligations.FirstAngleAfterResetIsZero := by
  intro s r new hreset
  rw [prevOf_zero_of_exec_reset hreset]
  exact ⟨discX_zero_left new, discY_zero_left new, angle_zero_left new⟩

/-! ### A PROCESS that continues another (R164) -/

/-- A PROCESS of `m` blocks begun in `s₂` goes on where one begun in `s` stands after `n` blocks. -/
structure State.Continues (s₂ s : State) (n m : Nat) : Prop where
  carry_eq : s₂.carry = s.prevOf n
  volf_eq : s₂.volf = s.volf
  bytes_eq : ∀ a, a < 128 * m → s₂.byteAt .ibuf a = s.byteAt .ibuf (128 * n + a)

section Continues

variable {s₂ s : State} {n m k : Nat}

/-- The bytes of block `k` of the second PROCESS are those of block `n + k` of the whole (R54). -/
theorem State.Continues.block_bytes (h : s₂.Continues s n m) (hk : k < m) {i : Nat} (hi : i < 128) :
    s₂.byteAt .ibuf (128 * k + i) = s.byteAt .ibuf (128 * (n + k) + i) := by
  rw [h.bytes_eq _ (by omega), Nat.mul_add, Nat.add_assoc]

theorem State.Continues.prevOf_eq (h : s₂.Continues s n m) (hk : k ≤ m) : s₂.prevOf k = s.prevOf (n + k) := by
  cases k with
  | zero => exact h.carry_eq
  | succ k =>
    refine decimate_congr fun i hi => ?_
    rw [groupBase, groupBase, Nat.add_assoc, Nat.add_assoc]
    exact h.block_bytes hk (by omega)

theorem State.Continues.sampleOf_eq (h : s₂.Continues s n m) (hk : k < m) : s₂.sampleOf k = s.sampleOf (n + k) := by
  rw [State.sampleOf, State.sampleOf, h.prevOf_eq hk.le, h.volf_eq, block_congr _ _ fun _ => h.block_bytes hk]

theorem State.Continues.processed_carry_eq (h : s₂.Continues s n m) :
    (s₂.processed m).carry = (s.processed (n + m)).carry := by
  rw [State.processed_carry, State.processed_carry, h.prevOf_eq le_rfl]

end Continues

/-! ### The length of a split PROCESS -/

theorem eq_processed_of_exec {s t : State} {len : BitVec 24} (h : s.accepts len) (hexec : exec (.process len) s = .next t) :
    t = s.processed (lenBlocks len) :=
  Host.Outcome.next.inj (hexec.symm.trans (execProcess_of_accepts h))

section Split

variable {lenA lenB lenAB : BitVec 24}

theorem lenBlocks_split (hsum : lenAB.toNat = lenA.toNat + lenB.toNat) (hA : lenA.toNat % 128 = 0) :
    lenBlocks lenAB = lenBlocks lenA + lenBlocks lenB := by
  simp only [lenBlocks, lenBytes, Config.blockBytes]
  omega

theorem State.accepts_split_left {s : State} (hsum : lenAB.toNat = lenA.toNat + lenB.toNat) (hA : lenA.toNat % 128 = 0)
    (h : s.accepts lenAB) : s.accepts lenA := by
  obtain ⟨-, hsize⟩ := h
  simp only [State.accepts, lenBytes, Config.blockBytes] at *
  omega

theorem State.accepts_split_right {s s₂ : State} (hsum : lenAB.toNat = lenA.toNat + lenB.toNat)
    (hA : lenA.toNat % 128 = 0) (h : s.accepts lenAB) (hsize : s₂.ibufSize = s.ibufSize) : s₂.accepts lenB := by
  obtain ⟨hmod, hfits⟩ := h
  simp only [State.accepts, State.ibufBytes, lenBytes, Config.blockBytes, hsize] at *
  omega

end Split

/-- Settles O21: the second call continues the first (`State.Continues`), so its blocks are those of the single call. -/
theorem splitProcessIsContinuous : Obligations.SplitProcessIsContinuous := by
  intro s s₂ t₁ t₂ t lenA lenB lenAB hsum hA haccepts hexecA hcarryI hcarryQ hvolf hsize hbytes hexecB hexecAB
  obtain rfl := eq_processed_of_exec (State.accepts_split_left hsum hA haccepts) hexecA
  rw [State.processed_volf] at hvolf
  rw [State.processed_ibufSize] at hsize
  obtain rfl := eq_processed_of_exec (State.accepts_split_right hsum hA haccepts hsize) hexecB
  obtain rfl := eq_processed_of_exec haccepts hexecAB
  have hblocksA : 128 * lenBlocks lenA = lenA.toNat :=
    Nat.mul_div_cancel' (Nat.dvd_of_mod_eq_zero hA)
  have hblocksB : 128 * lenBlocks lenB ≤ lenB.toNat := Nat.mul_div_le _ _
  have hcontinues : s₂.Continues s (lenBlocks lenA) (lenBlocks lenB) :=
    { carry_eq := (State.carry_eq_iff.mpr ⟨hcarryI, hcarryQ⟩).trans (s.processed_carry _)
      volf_eq := hvolf
      bytes_eq := fun a ha => by rw [hblocksA, hbytes a (by omega)] }
  rw [lenBlocks_split hsum hA]
  obtain ⟨hfinalI, hfinalQ⟩ := State.carry_eq_iff.mp hcontinues.processed_carry_eq
  refine ⟨hfinalI, hfinalQ, fun k hk => ?_, fun k hk => ?_⟩
  · rw [s.processed_sample _ (Nat.lt_add_right _ hk), s.processed_sample _ hk]
  · rw [s.processed_sample _ (Nat.add_lt_add_left hk _), s₂.processed_sample _ hk, hcontinues.sampleOf_eq hk]

end Sys2Proof.Machine
end

section
/-! PROOFS of the family 46_commands.md. RESET and the empty PROCESS are equalities of states. For the laws of PROCESS, the
bytes that its blocks store are read off once (`processBlocks_obuf_get?`), a sample is shown to depend on the three arguments
of its block alone (`State.sampleOf_congr`), and a repeated byte gives one decimated sample over and over, whose angle
against itself is 0 (`angle_self`). -/

namespace Sys2Proof.Machine

/-! ### RESET (R171) -/

/-- R82: the pattern of RESET leaves no bit open. -/
theorem resetPattern_iff_eq (w : Word) : ResetPattern w ↔ w = 0x10000000#32 := by
  have hvalue : w = 0x10000000#32 ↔ w.toNat = 2 ^ 28 := by rw [← BitVec.toNat_inj]; rfl
  rw [hvalue, ResetPattern]
  omega

/-- Settles O14: the one word by `resetPattern_iff_eq`; the effect is that of the two updates of `execReset`. -/
theorem resetClearsTheCarryoverOnly : Obligations.ResetClearsTheCarryoverOnly :=
  ⟨fun w => (decode_eq_reset_iff w).trans (resetPattern_iff_eq w), fun _ => rfl⟩

/-! ### The empty PROCESS (R175) -/

theorem State.accepts_zero (s : State) : s.accepts 0#24 := ⟨rfl, Nat.zero_le _⟩

/-- With no block the loop does not turn and the carryover is not written back. -/
theorem State.processed_zero (s : State) : s.processed 0 = { s with ocount := 0#32, errcode := .ok, running := none } := rfl

/-- Settles O18: no check of PROCESS can fail for `LEN = 0`, and it has 0 blocks. -/
theorem emptyProcess : Obligations.EmptyProcess := by
  intro s
  have hprocessed : exec (.process 0#24) s = .next (s.processed 0) := execProcess_of_accepts s.accepts_zero
  rw [hprocessed, s.processed_zero]

/-! ### The length law (R176) -/

/-- R154, R55: the byte that `n` blocks leave at an address below `2 * n`: the low or the high one of a sample. -/
theorem processBlocks_obuf_get? (s : State) {n a : Nat} (h : a < 2 * n) :
    (processBlocks s n).obuf.get? a = some (BitVec.ofNat 8 ((s.sampleOf (a / 2)).toNat / 256 ^ (a % 2))) := by
  have hparity : a % 2 < 2 := Nat.mod_lt a two_pos
  have haddr : sampleAddr (a / 2) + a % 2 = a := Nat.div_add_mod a 2
  have hstored := processBlocks_obuf_sample s n (a / 2) (a % 2) (by omega) hparity
  rwa [Memory.get?_write_inside _ _ _ _ _ hparity, haddr] at hstored

/-- An accepted length is a whole number of blocks, and each block leaves two bytes. -/
theorem State.accepts.two_mul_lenBlocks {s : State} {len : BitVec 24} (h : s.accepts len) :
    2 * lenBlocks len = len.toNat / 64 := by
  obtain ⟨hmod, -⟩ := h
  simp only [lenBlocks, lenBytes, Config.blockBytes] at *
  omega

/-- Settles O17: below `LEN/64` by `processBlocks_obuf_get?`, from there on by `processBlocks_obuf_above`. -/
theorem processWritesExactlyItsSamples : Obligations.ProcessWritesExactlyItsSamples := by
  intro s t len haccepts hexec
  obtain rfl := eq_processed_of_exec haccepts hexec
  obtain ⟨hfits, hcount⟩ := State.accepts_fits haccepts
  rw [← haccepts.two_mul_lenBlocks, State.processed_obuf]
  refine ⟨?_, fun a ha => ⟨_, processBlocks_obuf_get? s ha⟩, fun a ha => processBlocks_obuf_above s _ a ha, hfits⟩
  rw [State.processed_ocount, BitVec.toNat_ofNat]
  exact Nat.mod_eq_of_lt (by omega)

/-! ### What a sample depends on (R177) -/

/-- R177: the factor, the decimated sample before the block, and the 128 bytes of the block. -/
theorem State.sampleOf_congr {s s' : State} {k l : Nat} (hvolf : s.volf = s'.volf) (hprev : s.prevOf k = s'.prevOf l)
    (hbytes : ∀ i, i < 128 → s.byteAt .ibuf (128 * k + i) = s'.byteAt .ibuf (128 * l + i)) :
    s.sampleOf k = s'.sampleOf l := by
  rw [State.sampleOf, State.sampleOf, hvolf, hprev, block_congr _ _ hbytes]

/-- Settles O22: each of the two samples is its block's, and the blocks agree by `State.sampleOf_congr`. -/
theorem sampleIsLocal : Obligations.SampleIsLocal := by
  intro s s' t t' len len' k l haccepts haccepts' hk hl hexec hexec' hvolf hprev hbytes
  obtain rfl := eq_processed_of_exec haccepts hexec
  obtain rfl := eq_processed_of_exec haccepts' hexec'
  rw [s.processed_sample _ hk, s'.processed_sample _ hl, State.sampleOf_congr hvolf hprev hbytes]

/-! ### An input of one repeated byte (R178) -/

/-- R110: the decimated sample of 16 bytes that are all `b`. -/
def constantSample (b : Byte) : Decimated where
  i := 8 * ((b.toNat : Int) - 128)
  q := 8 * ((b.toNat : Int) - 128)

theorem decimate_constant (b : Byte) (k t : Nat) : decimate (fun _ => b) k t = constantSample b := by
  have hsum : dec1 (fun _ => sconv b) = 8 * ((b.toNat : Int) - 128) := by rw [dec1_eq, sconv_eq]; ring
  exact congrArg₂ Decimated.mk hsum hsum

/-- R139: a sample that has not turned against the one before it gives the angle 0. -/
theorem angle_eq_zero {old new : Decimated} (hx : 0 ≤ discX old new) (hy : discY old new = 0) : angle old new = 0 := by
  rw [angle, hy, i2f_zero]
  exact atan2a_zero_right_of_nonneg (rn32_nonneg (by exact_mod_cast hx))

theorem angle_self (d : Decimated) : angle d d = 0 :=
  angle_eq_zero (add_nonneg (mul_self_nonneg d.i) (mul_self_nonneg d.q)) (by rw [discY, mul_comm, sub_self])

theorem dec2_eq_zero {angles : Nat → Rat} (h : ∀ t, t < 8 → angles t = 0) : dec2 angles = 0 := by
  refine forTo_induct (P := (· = 0)) 8 rfl fun t acc ht hacc => ?_
  rw [hacc, h t ht, dec2Add, fadd, add_zero, rn32_zero]

theorem outputSample_zero (sc : Rat) : outputSample 0 sc = 0#16 := by
  rw [outputSample, gain, fmul, zero_mul, rn32_zero]
  rfl

/-- R178: a block whose decimated samples are all `d`, after no sample (R162) or after `d` as well, is silent. -/
theorem block_out_eq_zero {byteAt : Nat → Byte} {k : Nat} {prev d : Decimated} (hprev : prev = ⟨0, 0⟩ ∨ prev = d)
    (hd : ∀ t, t < 8 → decimate byteAt k t = d) (sc : Rat) : (block byteAt sc k prev).out = 0#16 := by
  have hangles : ∀ t, t < 8 → angleOf byteAt k prev t = 0 := by
    intro t ht
    rw [angleOf, hd t ht]
    cases t with
    | zero =>
      obtain rfl | rfl := hprev
      · exact angle_zero_left d
      · exact angle_self prev
    | succ t =>
      rw [oldOf, hd t (by omega)]
      exact angle_self d
  rw [block_out, dec2_eq_zero hangles, outputSample_zero]

section RepeatedByte

variable {r : State} {n k : Nat} {b : Byte}

theorem State.decimate_of_repeated (h : ∀ a, a < 128 * n → r.byteAt .ibuf a = b) (hk : k < n) {t : Nat} (ht : t < 8) :
    decimate (r.byteAt .ibuf) k t = constantSample b := by
  rw [← decimate_constant b k t]
  exact decimate_congr fun i hi => h _ (by rw [groupBase]; omega)

theorem State.sampleOf_of_repeated (h : ∀ a, a < 128 * n → r.byteAt .ibuf a = b) (hzero : r.prevOf 0 = ⟨0, 0⟩)
    (hk : k < n) : r.sampleOf k = 0#16 := by
  have hprev : r.prevOf k = ⟨0, 0⟩ ∨ r.prevOf k = constantSample b := by
    cases k with
    | zero => exact .inl hzero
    | succ k => exact .inr (State.decimate_of_repeated h (Nat.lt_of_succ_lt hk) (by norm_num))
  exact block_out_eq_zero hprev (fun t ht => State.decimate_of_repeated h hk ht) _

theorem State.processed_carry_of_repeated (h : ∀ a, a < 128 * n → r.byteAt .ibuf a = b) (hn : 1 ≤ n) :
    (r.processed n).carry = constantSample b := by
  obtain ⟨m, rfl⟩ := Nat.exists_eq_add_of_le' hn
  rw [State.processed_carry]
  exact State.decimate_of_repeated h (Nat.lt_succ_self m) (by norm_num)

end RepeatedByte

/-- Settles O24: RESET leaves the zero sample before block 0, and every other sample before a block is that of the byte. -/
theorem constantInputIsSilent : Obligations.ConstantInputIsSilent := by
  intro s r t len b hreset haccepts hbytes hexec
  obtain rfl := eq_processed_of_exec haccepts hexec
  have hrepeated : ∀ a, a < 128 * lenBlocks len → r.byteAt .ibuf a = b :=
    fun a ha => hbytes a (ha.trans_le (Nat.mul_div_le _ _))
  refine ⟨fun k hk => ?_, fun hn => ?_⟩
  · rw [r.processed_sample _ hk, State.sampleOf_of_repeated hrepeated (prevOf_zero_of_exec_reset hreset) hk]
  · exact Decimated.mk.inj (State.processed_carry_of_repeated hrepeated hn)

end Sys2Proof.Machine
end

section
/-! PROOFS of the family 60_exceptions.md: the one exception of R193 and its causes. The condition under which a command ends
with a code is named (`State.Cause`). Some cause always holds, and each one settles the move of the CORE; a move that
has one outcome therefore has one cause, so that the four need not be told apart pair by pair. -/

namespace Sys2Proof.Machine

/-! ### PROCESS, check by check (R192) -/

theorem execProcess_of_misaligned {len : BitVec 24} {s : State} (h : lenBytes len % Config.blockBytes ≠ 0) :
    execProcess len s = .next (s.reject .badLength) := by
  obtain ⟨-, hexec⟩ | ⟨haligned, -, -⟩ | ⟨⟨haligned, -⟩, -⟩ := execProcess_cases len s
  · exact hexec
  · exact absurd haligned h
  · exact absurd haligned h

theorem execProcess_of_beyond {len : BitVec 24} {s : State} (haligned : lenBytes len % Config.blockBytes = 0)
    (hbeyond : s.ibufBytes < lenBytes len) : execProcess len s = .next (s.reject .bufferRange) := by
  obtain ⟨hmisaligned, -⟩ | ⟨-, -, hexec⟩ | ⟨⟨-, hfits⟩, -⟩ := execProcess_cases len s
  · exact absurd haligned hmisaligned
  · exact hexec
  · exact absurd hfits (not_le.mpr hbeyond)

/-! ### A move of the CORE -/

theorem step_of_coreMoves {s : State} (h : s.coreMoves) : step s = coreStep (s.setSchedule s.schedule.tail) := by
  obtain hempty | ⟨rest, hcore⟩ := h
  · have hsame : s.setSchedule s.schedule.tail = s := by rw [hempty, List.tail_nil, ← hempty]; rfl
    rw [hsame, step_no_move hempty]
  · rw [hcore, List.tail_cons, step_core hcore]

section CoreStep

variable {s : State} {w : Word}

theorem coreStep_of_command {i : Instr} (hrun : s.running = some w) (hdecode : decode w = .ok i) :
    coreStep s = exec i s := by
  rw [coreStep, takeCommand, hrun]
  simp only [hdecode]

theorem coreStep_of_illegal {why : Undecodable} (hrun : s.running = some w) (hdecode : decode w = .error why) :
    coreStep s = .next (s.reject .illegalCmd) := by
  rw [coreStep, takeCommand, hrun]
  simp only [hdecode, rejectIllegal]

theorem exists_decode_error (h : ∀ i, decode w ≠ .ok i) : ∃ why, decode w = .error why := by
  cases hdecode : decode w with
  | error why => exact ⟨why, rfl⟩
  | ok i => exact absurd hdecode (h i)

/-! ### The cause of a code (R190, R192) -/

/-- What has to hold of the state and of the word in flight for the command to end with the code. -/
def State.Cause (s : State) (w : Word) : ErrCode → Prop
  | .illegalCmd => ∀ i, decode w ≠ .ok i
  | .badLength => ∃ len, decode w = .ok (.process len) ∧ len.toNat % 128 ≠ 0
  | .bufferRange => ∃ len, decode w = .ok (.process len) ∧ len.toNat % 128 = 0 ∧ s.ibufBytes < len.toNat
  | .ok => decode w = .ok .reset ∨ (∃ f, decode w = .ok (.setvol f)) ∨
      ∃ len, decode w = .ok (.process len) ∧ s.accepts len

/-- R190: the table of codes leaves no command out. -/
theorem State.exists_cause (s : State) (w : Word) : ∃ c, s.Cause w c := by
  cases hdecode : decode w with
  | error why => exact ⟨.illegalCmd, fun i h => by rw [hdecode] at h; cases h⟩
  | ok i =>
    cases i with
    | reset => exact ⟨.ok, .inl hdecode⟩
    | setvol f => exact ⟨.ok, .inr (.inl ⟨f, hdecode⟩)⟩
    | process len =>
      obtain ⟨hmisaligned, -⟩ | ⟨haligned, hbeyond, -⟩ | ⟨haccepts, -⟩ := execProcess_cases len s
      · exact ⟨.badLength, len, hdecode, hmisaligned⟩
      · exact ⟨.bufferRange, len, hdecode, haligned, hbeyond⟩
      · exact ⟨.ok, .inr (.inr ⟨len, hdecode, haccepts⟩)⟩

/-- R193: the cause of a code other than `OK` is met by the one exception, with that code. -/
theorem coreStep_of_rejection_cause {c : ErrCode} (hrun : s.running = some w) (hc : c ≠ .ok) (hcause : s.Cause w c) :
    coreStep s = .next (s.reject c) := by
  cases c with
  | ok => exact absurd rfl hc
  | illegalCmd =>
    obtain ⟨why, hdecode⟩ := exists_decode_error hcause
    exact coreStep_of_illegal hrun hdecode
  | badLength =>
    obtain ⟨len, hdecode, hmisaligned⟩ := hcause
    exact (coreStep_of_command hrun hdecode).trans (execProcess_of_misaligned hmisaligned)
  | bufferRange =>
    obtain ⟨len, hdecode, haligned, hbeyond⟩ := hcause
    exact (coreStep_of_command hrun hdecode).trans (execProcess_of_beyond haligned hbeyond)

/-- R170 (4): a command whose checks pass ends with `OK`. -/
theorem coreStep_of_ok_cause (hrun : s.running = some w) (hcause : s.Cause w .ok) :
    ∃ t, coreStep s = .next t ∧ t.errcode = .ok := by
  obtain hdecode | ⟨f, hdecode⟩ | ⟨len, hdecode, haccepts⟩ := hcause
  · exact ⟨_, coreStep_of_command hrun hdecode, State.complete_errcode _⟩
  · exact ⟨_, coreStep_of_command hrun hdecode, State.complete_errcode _⟩
  · exact ⟨_, (coreStep_of_command hrun hdecode).trans (execProcess_of_accepts haccepts), s.processed_errcode _⟩

theorem errcode_of_cause {t : State} {c : ErrCode} (hrun : s.running = some w) (hcore : coreStep s = .next t)
    (hcause : s.Cause w c) : t.errcode = c := by
  by_cases hc : c = .ok
  · subst hc
    obtain ⟨t', hcore', hok⟩ := coreStep_of_ok_cause hrun hcause
    obtain rfl : t = t' := Host.Outcome.next.inj (hcore.symm.trans hcore')
    exact hok
  · obtain rfl : t = s.reject c :=
      Host.Outcome.next.inj (hcore.symm.trans (coreStep_of_rejection_cause hrun hc hcause))
    exact s.reject_errcode c

/-- R192: one code per command. The cause that does hold is the one of the code that the move leaves. -/
theorem errcode_eq_iff_cause {t : State} (hrun : s.running = some w) (hcore : coreStep s = .next t) (c : ErrCode) :
    t.errcode = c ↔ s.Cause w c := by
  refine ⟨?_, errcode_of_cause hrun hcore⟩
  rintro rfl
  obtain ⟨c, hcause⟩ := s.exists_cause w
  rwa [errcode_of_cause hrun hcore hcause]

end CoreStep

/-- Settles O9: each clause is a cause of `State.Cause`, met in the state with the CORE's move taken off the schedule. -/
theorem rejectionWritesOnlyStatus : Obligations.RejectionWritesOnlyStatus := by
  intro s w rest hrun hschedule
  have hreject (c : ErrCode) (hc : c ≠ .ok) (hcause : (s.setSchedule rest).Cause w c) :
      step s = .next ((s.setSchedule rest).reject c) :=
    (step_core hschedule).trans (coreStep_of_rejection_cause hrun hc hcause)
  exact ⟨hreject .illegalCmd (by decide),
    fun len hdecode hmisaligned => hreject .badLength (by decide) ⟨len, hdecode, hmisaligned⟩,
    fun len hdecode haligned hbeyond => hreject .bufferRange (by decide) ⟨len, hdecode, haligned, hbeyond⟩⟩

/-- Settles O10: the four equivalences are `errcode_eq_iff_cause` at the four codes. -/
theorem errcodeNamesTheCause : Obligations.ErrcodeNamesTheCause := by
  refine ⟨fun s t w hrun hmoves hstep => ?_, rfl, rfl, rfl, rfl⟩
  have hcause : ∀ c, t.errcode = c ↔ (s.setSchedule s.schedule.tail).Cause w c :=
    errcode_eq_iff_cause hrun ((step_of_coreMoves hmoves).symm.trans hstep)
  exact ⟨hcause .illegalCmd, hcause .badLength, hcause .bufferRange, hcause .ok⟩

end Sys2Proof.Machine
end

section
/-! PROOFS of the encoding statements (30_encoding.md). The value of a command's word is the opcode in the top digit and the operand
below it (`encode_toNat_setvol` and its neighbours), so that `decode (encode i)` and `encode` of a decoded word are read off the
equivalences that the decoder's outcomes have with the fields of the word. -/

namespace Sys2Proof

/-! ### The value of an encoded word (R81 to R84) -/

theorem append_toNat {m n : Nat} (x : BitVec m) (y : BitVec n) : (x ++ y).toNat = x.toNat * 2 ^ n + y.toNat := by
  rw [BitVec.toNat_append, ← Nat.shiftLeft_add_eq_or_of_lt y.isLt, Nat.shiftLeft_eq]

theorem encode_reset : encode .reset = 0x10000000#32 := rfl

theorem encode_setvol_toNat (factor : BitVec 16) : (encode (.setvol factor)).toNat = 0x20000000 + factor.toNat := by
  rw [encode, append_toNat]; rfl

theorem encode_process_toNat (len : BitVec 24) : (encode (.process len)).toNat = 0x30000000 + len.toNat := by
  rw [encode, append_toNat]; rfl

/-! ### Round trips (R80, R86, R91) -/

theorem decode_encode (i : Instr) : decode (encode i) = .ok i := by
  cases i with
  | reset => rfl
  | setvol factor =>
    have hlt := factor.isLt
    rw [decode_eq_setvol_iff, SetvolPattern, encode_setvol_toNat]
    omega
  | process len =>
    have hlt := len.isLt
    rw [decode_eq_process_iff, ProcessPattern, encode_process_toNat]
    omega

/-- Settles O1: every command is well formed, and `decode_encode` holds of each of the three. -/
theorem decodeOfEncode : Obligations.DecodeOfEncode := fun i _ => decode_encode i

/-- Settles O2, command by command: the pattern and the operand that the decoder reads make up the whole value of the word. -/
theorem encodeOfDecode : Obligations.EncodeOfDecode := by
  intro w i hdecode
  apply BitVec.eq_of_toNat_eq
  cases i with
  | reset =>
    obtain ⟨hop, hrest⟩ := (decode_eq_reset_iff w).mp hdecode
    rw [encode_reset, BitVec.toNat_ofNat]
    omega
  | setvol factor =>
    obtain ⟨⟨hop, hreserved⟩, hfactor⟩ := (decode_eq_setvol_iff w factor).mp hdecode
    rw [encode_setvol_toNat]
    omega
  | process len =>
    obtain ⟨⟨hop, hreserved⟩, hlen⟩ := (decode_eq_process_iff w len).mp hdecode
    rw [encode_process_toNat]
    omega

/-! ### The assembler (R89) -/

theorem assemble_setvol_of_le {factor : Nat} (h : factor ≤ 65535) :
    assemble (.setvol factor) = some (.setvol (BitVec.ofNat 16 factor)) := by
  simp [assemble, AsmLine.wellFormed, h]

theorem assemble_process_of_le {len : Nat} (h : len ≤ 16777215) :
    assemble (.process len) = some (.process (BitVec.ofNat 24 len)) := by
  simp [assemble, AsmLine.wellFormed, h]

theorem assemble_eq_none {line : AsmLine} (h : line.wellFormed = false) : assemble line = none := by
  simp [assemble, h]

/-- Settles O5: the words by `encode_setvol_toNat` and `encode_process_toNat`; an operand in range loses nothing in its field. -/
theorem assembledWords : Obligations.AssembledWords := by
  refine ⟨⟨.reset, rfl, encode_reset⟩, fun factor h => ⟨_, assemble_setvol_of_le h, ?_⟩,
    fun len h => ⟨_, assemble_process_of_le h, ?_⟩, fun factor h => assemble_eq_none ?_,
    fun len h => assemble_eq_none ?_⟩
  · rw [encode_setvol_toNat, BitVec.toNat_ofNat, Nat.mod_eq_of_lt (by omega)]
  · rw [encode_process_toNat, BitVec.toNat_ofNat, Nat.mod_eq_of_lt (by omega)]
  · exact decide_eq_false (not_le.mpr h)
  · exact decide_eq_false (not_le.mpr h)

/-- Settles O4: nine closed words, evaluated. -/
theorem sampleWordsDecode : Obligations.SampleWordsDecode := by
  unfold Obligations.SampleWordsDecode
  decide

end Sys2Proof
end

section
/-! PROOFS of the statements about one step (R8, R170, R193, R210, R223). What a step can do is said once, as a relation between
the state before and the state after with one constructor per kind of move (`State.StepsTo`); the invariant, the stickiness
of `FAULT` and the cause of every change are each one case split over it. -/

namespace Sys2Proof.Machine

/-! ### What the CORE does with the word in flight (R170) -/

theorem coreStep_of_idle {s : State} (hrun : s.running = none) : coreStep s = .next s := by
  rw [coreStep, takeCommand, hrun]; rfl

/-- A command in flight ends: by the effect of its own kind, or by a rejection. -/
theorem coreStep_running_cases {s : State} {w : Word} (hrun : s.running = some w) :
    (decode w = .ok .reset ∧ coreStep s = .next (s.setCarry 0#32 0#32).complete) ∨
    (∃ f, decode w = .ok (.setvol f) ∧ coreStep s = .next (s.setVolf f).complete) ∨
    (∃ len, decode w = .ok (.process len) ∧ s.accepts len ∧ coreStep s = .next (s.processed (lenBlocks len))) ∨
    (∃ c, c ≠ .ok ∧ coreStep s = .next (s.reject c)) := by
  obtain ⟨c, hcause⟩ := s.exists_cause w
  by_cases hc : c = .ok
  · subst hc
    obtain hdecode | ⟨f, hdecode⟩ | ⟨len, hdecode, haccepts⟩ := hcause
    · exact .inl ⟨hdecode, coreStep_of_command hrun hdecode⟩
    · exact .inr (.inl ⟨f, hdecode, coreStep_of_command hrun hdecode⟩)
    · exact .inr (.inr (.inl ⟨len, hdecode, haccepts,
        (coreStep_of_command hrun hdecode).trans (execProcess_of_accepts haccepts)⟩))
  · exact .inr (.inr (.inr ⟨c, hc, coreStep_of_rejection_cause hrun hc hcause⟩))

/-! ### The kinds of move (R8, R59, R170) -/

/-- The state with the move at the head of the schedule taken off. -/
def State.afterMove (s : State) : State := s.setSchedule s.schedule.tail

/-- One step from `s`, by its kind: five kinds of the CORE's moves and five of the host's. -/
inductive State.StepsTo (s : State) : State → Prop where
  | idles : s.coreMoves → s.running = none → s.StepsTo s.afterMove
  | clears {w : Word} : s.coreMoves → s.running = some w → decode w = .ok .reset →
      s.StepsTo (s.afterMove.setCarry 0#32 0#32).complete
  | setsFactor {w : Word} {f : BitVec 16} : s.coreMoves → s.running = some w → decode w = .ok (.setvol f) →
      s.StepsTo (s.afterMove.setVolf f).complete
  | processes {w : Word} {len : BitVec 24} : s.coreMoves → s.running = some w → decode w = .ok (.process len) →
      s.accepts len → s.StepsTo (s.afterMove.processed (lenBlocks len))
  | rejects {w : Word} {c : ErrCode} : s.coreMoves → s.running = some w → c ≠ .ok → s.StepsTo (s.afterMove.reject c)
  | resets : s.resetMoves → s.StepsTo s.afterMove.hardwareReset
  | accepts {w : Word} {rest : List Event} : s.schedule = .host (.wrcmd w) :: rest → s.running = none →
      s.StepsTo (s.afterMove.accept w)
  | ignores {tx : HostTx} {rest : List Event} : s.schedule = .host tx :: rest → s.StepsTo s.afterMove
  | stores {a : Nat} {bs : List Byte} {rest : List Event} : s.schedule = .host (.wribuf a bs) :: rest →
      s.running = none → (bs = [] ∨ a + bs.length ≤ s.ibufBytes) →
      s.StepsTo (s.afterMove.setIbuf (s.ibuf.writeBytes a bs))
  | reads {d : ReadData} {tx : HostTx} {rest : List Event} : s.schedule = .host tx :: rest →
      s.StepsTo (s.afterMove.observe d)

theorem State.coreMoves_or_host (s : State) : s.coreMoves ∨ ∃ tx rest, s.schedule = .host tx :: rest := by
  obtain ⟨tx, rest, hhost, -⟩ | ⟨rest, hcore, -⟩ | ⟨hempty, -⟩ := step_cases s
  · exact .inr ⟨tx, rest, hhost⟩
  · exact .inl (.inr ⟨rest, hcore⟩)
  · exact .inl (.inl hempty)

theorem State.not_coreMoves_of_host {s : State} {tx : HostTx} {rest : List Event} (h : s.schedule = .host tx :: rest) :
    ¬ s.coreMoves := by
  simp [State.coreMoves, h]

theorem State.StepsTo.of_coreStep {s t : State} (hmoves : s.coreMoves) (hcore : coreStep s.afterMove = .next t) :
    s.StepsTo t := by
  cases hrun : s.running with
  | none =>
    obtain rfl := Host.Outcome.next.inj ((coreStep_of_idle (s := s.afterMove) hrun).symm.trans hcore)
    exact .idles hmoves hrun
  | some w =>
    obtain ⟨hdecode, heq⟩ | ⟨f, hdecode, heq⟩ | ⟨len, hdecode, haccepts, heq⟩ | ⟨c, hc, heq⟩ :=
      coreStep_running_cases (s := s.afterMove) hrun
    all_goals obtain rfl := Host.Outcome.next.inj (heq.symm.trans hcore)
    · exact .clears hmoves hrun hdecode
    · exact .setsFactor hmoves hrun hdecode
    · exact .processes hmoves hrun hdecode haccepts
    · exact .rejects hmoves hrun hc

theorem State.StepsTo.of_hostStep {s t : State} {tx : HostTx} {rest : List Event} (hhost : s.schedule = .host tx :: rest)
    (hstep : hostStep tx s.afterMove = .next t) : s.StepsTo t := by
  obtain ⟨rfl, rfl⟩ | ⟨w, rfl, hfree, rfl⟩ | ⟨o, w, rfl, -, -, rfl⟩ | ⟨a, bs, rfl, hfree, hfits, rfl⟩ | ⟨d, rfl⟩ :=
    hostStep_cases hstep
  · exact .resets ⟨rest, hhost⟩
  · exact .accepts hhost (s.not_busy_iff.mp hfree)
  · exact .ignores hhost
  · exact .stores hhost (s.not_busy_iff.mp hfree) hfits
  · exact .reads hhost

/-- Every step that goes on is of one of the ten kinds. -/
theorem State.StepsTo.of_step {s t : State} (hstep : step s = .next t) : s.StepsTo t := by
  obtain hmoves | ⟨tx, rest, hhost⟩ := s.coreMoves_or_host
  · exact .of_coreStep hmoves ((step_of_coreMoves hmoves).symm.trans hstep)
  · refine .of_hostStep hhost ?_
    rw [State.afterMove, hhost, List.tail_cons, ← step_host hhost, hstep]

/-! ### Every update keeps the invariant (R24, R33, R50, R193) -/

section Invariant

variable {s : State}

theorem State.Inv.setSchedule (h : s.Inv) (l : List Event) : (s.setSchedule l).Inv := { h with }

theorem State.Inv.accept (h : s.Inv) (w : Word) : (s.accept w).Inv := { h with }

theorem State.Inv.observe (h : s.Inv) (d : ReadData) : (s.observe d).Inv := { h with }

theorem State.Inv.setVolf (h : s.Inv) (f : BitVec 16) : (s.setVolf f).Inv := { h with }

theorem State.Inv.complete (h : s.Inv) : s.complete.Inv := { h with fault_explains := fun hne => absurd rfl hne }

theorem State.Inv.reject (h : s.Inv) (c : ErrCode) : (s.reject c).Inv := { h with fault_explains := fun _ => rfl }

theorem State.Inv.setCarry (h : s.Inv) {i q : Word} (hi : InCarryRange i) (hq : InCarryRange q) :
    (s.setCarry i q).Inv := { h with carryI_range := hi, carryQ_range := hq }

theorem State.Inv.setOcount (h : s.Inv) {n : Word} (hn : 2 * n.toNat ≤ s.obufBytes) : (s.setOcount n).Inv :=
  { h with ocount_fits := hn }

theorem State.Inv.setObuf (h : s.Inv) {m : Memory} (hwf : m.wf = true) (hwithin : m.Within s.obufBytes) :
    (s.setObuf m).Inv := { h with obuf_wf := hwf, obuf_within := hwithin }

theorem State.Inv.setIbuf (h : s.Inv) {m : Memory} (hwf : m.wf = true) (hwithin : m.Within s.ibufBytes) :
    (s.setIbuf m).Inv := { h with ibuf_wf := hwf, ibuf_within := hwithin }

theorem inCarryRange_zero : InCarryRange 0#32 := by unfold InCarryRange; decide

/-- R33, R112: a decimated sample written to the carryover is in the carryover's range. -/
theorem inCarryRange_ofInt {n : Int} (h : -1024 ≤ n ∧ n ≤ 1016) : InCarryRange (BitVec.ofInt 32 n) := by
  rwa [InCarryRange, toInt_ofInt_of_component h]

theorem State.Inv.writeBack (h : s.Inv) {n : Nat} {prev : Decimated} (hprev : 1 ≤ n → prev.InRange) :
    (s.writeBack n prev).Inv := by
  rw [State.writeBack]
  split_ifs with hn
  · obtain ⟨hi, hq⟩ := hprev hn
    exact h.setCarry (inCarryRange_ofInt hi) (inCarryRange_ofInt hq)
  · exact h

theorem State.prevOf_inRange {n : Nat} (hn : 1 ≤ n) : (s.prevOf n).InRange := by
  obtain ⟨m, rfl⟩ := Nat.exists_eq_add_of_le' hn
  exact decimate_range _ m 7

theorem State.Inv.processed (h : s.Inv) {n : Nat} (hfits : 2 * n ≤ s.obufBytes) (hn : n < 2 ^ 32) :
    (s.processed n).Inv := by
  have hobuf : (s.setObuf (processBlocks s n).obuf).Inv :=
    h.setObuf (processBlocks_obuf_wf s h.obuf_wf n) (processBlocks_obuf_within s h.obuf_within n hfits)
  have hcarry := hobuf.writeBack (n := n) (prev := (processBlocks s n).prev)
    fun hn => by rw [processBlocks_prev]; exact State.prevOf_inRange hn
  refine (hcarry.setOcount ?_).complete
  rw [BitVec.toNat_ofNat, Nat.mod_eq_of_lt hn]
  simpa [State.obufBytes, State.ibufBytes] using hfits

theorem State.Inv.writeBytes (h : s.Inv) {a : Nat} {bs : List Byte} (hfits : bs = [] ∨ a + bs.length ≤ s.ibufBytes) :
    (s.setIbuf (s.ibuf.writeBytes a bs)).Inv := by
  refine h.setIbuf (Memory.writeBytes_wf h.ibuf_wf a bs) ?_
  obtain rfl | hfits := hfits
  · exact h.ibuf_within
  · exact Memory.writeBytes_within h.ibuf_within hfits

theorem State.hardwareReset_inv (s : State) : s.hardwareReset.Inv where
  ibuf_wf := rfl
  obuf_wf := rfl
  ibuf_within := List.forall_mem_nil _
  obuf_within := List.forall_mem_nil _
  carryI_range := inCarryRange_zero
  carryQ_range := inCarryRange_zero
  ocount_fits := Nat.zero_le _
  fault_explains := fun hne => absurd rfl hne

end Invariant

/-- Settles O52, kind of move by kind of move: each is a chain of updates that keep the invariant. -/
theorem everyStepKeepsTheInvariant : Obligations.EveryStepKeepsTheInvariant := by
  intro s t hinv hstep
  have hafter : s.afterMove.Inv := hinv.setSchedule _
  cases State.StepsTo.of_step hstep with
  | idles => exact hafter
  | clears => exact (hafter.setCarry inCarryRange_zero inCarryRange_zero).complete
  | setsFactor => exact (hafter.setVolf _).complete
  | processes _ _ _ haccepts =>
    obtain ⟨hfits, hcount⟩ := State.accepts_fits haccepts
    exact hafter.processed hfits (by omega)
  | rejects => exact hafter.reject _
  | resets => exact s.afterMove.hardwareReset_inv
  | accepts => exact hafter.accept _
  | ignores => exact hafter
  | stores _ _ hfits => exact hafter.writeBytes hfits
  | reads => exact hafter.observe _

/-- After a hardware reset and at the start of a run the fields that the invariant speaks of hold the same values (R224). -/
theorem State.start_inv (size : Config.BufferSize) (moves : List Event) : (State.start size moves).Inv :=
  { (State.start size moves).hardwareReset_inv with }

/-- Settles O53: `State.reset` is the start with the size it carries and no plan. -/
theorem startHasTheInvariant : Obligations.StartHasTheInvariant :=
  ⟨State.start_inv Config.defaultBufferSize [], State.start_inv⟩

/-! ### The causes of a change (R20 to R24, R193) -/

/-- FAULT goes back to 0 by a hardware reset only. -/
theorem State.StepsTo.fault_stays {s t : State} (h : s.StepsTo t) (hfault : s.fault = true) :
    t.fault = true ∨ s.resetMoves := by
  cases h with
  | resets hreset => exact .inr hreset
  | processes => exact .inl ((State.processed_fault _ _).trans hfault)
  | rejects => exact .inl rfl
  | _ => exact .inl hfault

/-- FAULT goes to 1 by a rejection only. -/
theorem State.StepsTo.fault_set {s t : State} (h : s.StepsTo t) (hclear : s.fault = false) (hset : t.fault = true) :
    s.coreMoves ∧ ∃ c, c ≠ .ok ∧ t = s.afterMove.reject c := by
  cases h with
  | rejects hmoves _ hc => exact ⟨hmoves, _, hc, rfl⟩
  | resets => exact absurd hset Bool.false_ne_true
  | processes => exact absurd (hclear.symm.trans ((s.afterMove.processed_fault _).symm.trans hset)) Bool.false_ne_true
  | _ => exact absurd (hclear.symm.trans hset) Bool.false_ne_true

/-- R170, R193: a command ends with `OK` or with `FAULT` set. -/
theorem State.StepsTo.fault_of_code {s t : State} (h : s.StepsTo t) (hmoves : s.coreMoves) {w : Word}
    (hrun : s.running = some w) (hcode : t.errcode ≠ .ok) : t.fault = true := by
  cases h with
  | idles _ hnone => rw [hrun] at hnone; cases hnone
  | clears => exact absurd rfl hcode
  | setsFactor => exact absurd rfl hcode
  | processes => exact absurd (State.processed_errcode _ _) hcode
  | rejects => rfl
  | resets => exact absurd rfl hcode
  | accepts hhost => exact absurd hmoves (State.not_coreMoves_of_host hhost)
  | ignores hhost => exact absurd hmoves (State.not_coreMoves_of_host hhost)
  | stores hhost => exact absurd hmoves (State.not_coreMoves_of_host hhost)
  | reads hhost => exact absurd hmoves (State.not_coreMoves_of_host hhost)

/-- Settles O11: its three clauses are `State.StepsTo.fault_stays`, `fault_set` and `fault_of_code`. -/
theorem faultIsSticky : Obligations.FaultIsSticky := by
  intro s t hstep
  have hkind := State.StepsTo.of_step hstep
  refine ⟨hkind.fault_stays, fun hclear hset => ?_, fun hmoves ⟨_, hrun⟩ => hkind.fault_of_code hmoves hrun⟩
  obtain ⟨hmoves, c, hc, rfl⟩ := hkind.fault_set hclear hset
  exact ⟨hmoves, hc, rfl⟩

/-- R161: with no block PROCESS leaves the carryover. -/
theorem State.carry_of_processed_ne {s : State} {n : Nat}
    (h : (s.processed n).carryI ≠ s.carryI ∨ (s.processed n).carryQ ≠ s.carryQ) : 1 ≤ n := by
  by_contra hn
  obtain rfl : n = 0 := by omega
  obtain ⟨hi, hq⟩ := s.processed_carry_zero
  exact h.elim (· hi) (· hq)

/-- Settles O13, kind of move by kind of move: the fields that a kind leaves alone contradict the premise of their clause, and
the others name the kind. -/
theorem everyChangeHasItsCause : Obligations.EveryChangeHasItsCause := by
  intro s t hstep hreset
  cases State.StepsTo.of_step hstep with
  | idles => simp [State.afterMove]
  | clears hmoves hrun hdecode => simp [State.afterMove, hmoves, hrun, hdecode]
  | setsFactor hmoves hrun hdecode => simp [State.afterMove, hmoves, hrun, hdecode]
  | @processes w len hmoves hrun hdecode haccepts =>
    have hlen : 1 ≤ lenBlocks len → 128 ≤ len.toNat := fun h => by
      simp only [lenBlocks, lenBytes, Config.blockBytes] at h; omega
    have hcause : ∃ w, s.running = some w ∧ ∃ len, decode w = .ok (.process len) ∧ s.accepts len :=
      ⟨w, hrun, len, hdecode, haccepts⟩
    refine ⟨by simp [State.afterMove], fun hne => ⟨hmoves, w, hrun, .inr ⟨len, hdecode, haccepts, hlen ?_⟩⟩,
      fun _ => ⟨hmoves, hcause⟩, by simp [State.afterMove], fun _ => ⟨hmoves, w, hrun⟩, ?_, ?_⟩
    · exact State.carry_of_processed_ne (s := s.afterMove) hne
    · exact s.afterMove.processed_ibufSize _
    · exact s.afterMove.processed_epoch _
  | rejects hmoves hrun => simp [State.afterMove, hmoves, hrun]
  | resets hmoves => exact absurd hmoves hreset
  | accepts => simp [State.afterMove]
  | ignores => simp [State.afterMove]
  | stores hhost hrun => simp [State.afterMove, hhost, hrun]
  | reads => simp [State.afterMove]

/-! ### One move of the CORE (R8, R170, R223) -/

/-- Settles O8: each of the four ends of `coreStep_running_cases` leaves no command in flight. -/
theorem everyCommandEnds : Obligations.EveryCommandEnds := by
  intro s w hrun hmoves
  rw [step_of_coreMoves hmoves]
  obtain ⟨-, heq⟩ | ⟨f, -, heq⟩ | ⟨len, -, -, heq⟩ | ⟨c, -, heq⟩ :=
    coreStep_running_cases (s := s.setSchedule s.schedule.tail) hrun
  · exact ⟨_, heq, rfl, rfl, rfl, rfl, rfl⟩
  · exact ⟨_, heq, rfl, rfl, rfl, rfl, rfl⟩
  · exact ⟨_, heq, by simp⟩
  · exact ⟨_, heq, rfl, rfl, rfl, rfl, rfl⟩

/-- Settles O6: the move taken off the schedule leaves the word in flight. -/
theorem stepRunsTheDecodedCommand : Obligations.StepRunsTheDecodedCommand := fun _ _ _ hrun hdecode _ =>
  ⟨fun _ hcore => (step_core hcore).trans (coreStep_of_command hrun hdecode),
    fun hempty => (step_no_move hempty).trans (coreStep_of_command hrun hdecode)⟩

/-- Settles O12, by `coreStep_of_idle`. -/
theorem idleCoreHoldsItsState : Obligations.IdleCoreHoldsItsState := fun _ hrun =>
  ⟨fun _ hcore => (step_core hcore).trans (coreStep_of_idle hrun),
    fun hempty => (step_no_move hempty).trans (coreStep_of_idle hrun)⟩

/-! ### STATUS (R23) -/

theorem ErrCode.code_toNat_le (c : ErrCode) : c.code.toNat ≤ 3 := by cases c <;> decide

theorem State.statusWord_toNat (s : State) :
    s.statusWord.toNat = s.fault.toNat * 16 + s.errcode.code.toNat * 2 + s.busy.toNat := by
  rw [State.statusWord, append_toNat, append_toNat, append_toNat, BitVec.toNat_ofBool, BitVec.toNat_ofBool]
  have hzero : (0#27).toNat = 0 := rfl
  omega

theorem getLsbD_eq_iff (w : Word) (i : Nat) (b : Bool) : w.getLsbD i = b ↔ w.toNat / 2 ^ i % 2 = b.toNat := by
  rw [BitVec.getLsbD, Nat.testBit_eq_decide_div_mod_eq]
  cases b <;> simp

theorem State.statusWord_bit_zero (s : State) : s.statusWord.getLsbD 0 = s.busy := by
  have hbusy := s.busy.toNat_le
  rw [getLsbD_eq_iff, s.statusWord_toNat]
  omega

theorem State.statusWord_toNat_lt (s : State) : s.statusWord.toNat < 24 := by
  have hcode := s.errcode.code_toNat_le
  have hfault := s.fault.toNat_le
  have hbusy := s.busy.toNat_le
  rw [s.statusWord_toNat]
  omega

/-- Settles O44: the fields are the parts that `State.statusWord` is put together from, its value `State.statusWord_toNat`. -/
theorem statusWordFields : Obligations.StatusWordFields := by
  intro s
  have hcode := s.errcode.code_toNat_le
  have hfault := s.fault.toNat_le
  have hbusy := s.busy.toNat_le
  refine ⟨by rw [s.statusWord_bit_zero, s.busy_iff], ?_, ?_, ?_, hcode⟩
  · rw [extractLsb'_eq_iff, s.statusWord_toNat]; omega
  · rw [getLsbD_eq_iff, s.statusWord_toNat]; omega
  · rw [extractLsb'_eq_iff, s.statusWord_toNat, BitVec.toNat_ofNat]; omega

/-- Settles O51: the fields of `State.reset`, evaluated. -/
theorem resetState : Obligations.ResetState := by
  unfold Obligations.ResetState
  decide

theorem State.hardwareReset_statusWord (s : State) : s.hardwareReset.statusWord = 0#32 := by
  rw [State.statusWord, s.hardwareReset_fault, s.hardwareReset_errcode, s.hardwareReset_busy]
  decide

/-- Settles O50: the step is `State.hardwareReset` after the move is taken off, and an empty memory lists no byte. -/
theorem hardwareResetRestoresTheRegisters : Obligations.HardwareResetRestoresTheRegisters := fun _ _ hschedule =>
  ⟨_, step_host hschedule, rfl, rfl, rfl, State.hardwareReset_statusWord _, rfl, fun _ => rfl, fun _ => rfl, rfl, rfl, rfl⟩

/-- R33, R50: the induction over a run. -/
theorem Reachable.inv {s : State} (h : Reachable s) : s.Inv := by
  induction h with
  | start size moves => exact State.start_inv size moves
  | step _ hstep hinv => exact everyStepKeepsTheInvariant _ _ hinv hstep

/-- Settles O56: the invariant by `Reachable.inv`, the bound of `STATUS` from the widths of its fields. -/
theorem reachedStatesHaveTheInvariant : Obligations.ReachedStatesHaveTheInvariant := fun s hreach =>
  ⟨hreach.inv, s.statusWord_toNat_lt, hreach.inv.fault_explains⟩

/-! ### The carryover in 11 bits (R33) -/

theorem getLsbD_eq_false_of_lt {w : Word} {i : Nat} (hw : w.toNat < 2 ^ 10) (hi : 10 ≤ i) : w.getLsbD i = false :=
  Nat.testBit_lt_two_pow (hw.trans_le (Nat.pow_le_pow_right two_pos hi))

/-- A register not below 0 is below 2^10; of a negative one, that holds of its complement. -/
theorem InCarryRange.getLsbD_eq {w : Word} (h : InCarryRange w) {i : Nat} (hi : 10 ≤ i) (hi' : i < 32) :
    w.getLsbD i = w.getLsbD 10 := by
  obtain ⟨hlow, hhigh⟩ := h
  have hlt := w.isLt
  rw [BitVec.toInt_eq_toNat_cond] at hlow hhigh
  split_ifs at hlow hhigh with hsign
  · have hsmall : w.toNat < 2 ^ 10 := by omega
    rw [getLsbD_eq_false_of_lt hsmall hi, getLsbD_eq_false_of_lt hsmall le_rfl]
  · have hsmall : (~~~w).toNat < 2 ^ 10 := by rw [BitVec.toNat_not]; omega
    have hbits : ∀ j, 10 ≤ j → j < 32 → w.getLsbD j = true := fun j hj hj' => by
      simpa [BitVec.getLsbD_not, hj'] using getLsbD_eq_false_of_lt hsmall hj
    rw [hbits i hi hi', hbits 10 le_rfl (by norm_num)]

/-- Settles O54: the invariant gives the ranges of both registers, and `InCarryRange.getLsbD_eq` the bits. -/
theorem carryoverFitsElevenBits : Obligations.CarryoverFitsElevenBits := by
  intro s i hi hi'
  have hbits : ∀ {w : Word}, InCarryRange w → w.getLsbD i = w.getLsbD 10 := fun h => h.getLsbD_eq (by omega) hi'
  exact ⟨hbits, hbits, fun hinv => ⟨hbits hinv.carryI_range, hbits hinv.carryQ_range⟩⟩

end Sys2Proof.Machine
end

section
/-! PROOFS of the statements about the host (R27, R29, R53, R58, R59, R222). Each transaction has one lemma that says when it goes on,
in the words of `HostTx.allowed`, and one for each answer it gives; the table of access rights and the claims about single
accesses are read off these. -/

namespace Sys2Proof.Machine

/-! ### When a transaction goes on (R59, R222) -/

section Rights

variable {s : State}

theorem hostWriteReg_next_iff (o : Nat) (w : Word) :
    (∃ t, hostWriteReg o w s = .next t) ↔ HostTx.allowed s (.wrreg o w) = true := by
  cases hreg : regAt o with
  | none => simp [hostWriteReg, HostTx.allowed, hreg]
  | some r =>
    cases hbusy : s.busy with
    | true => simp [hostWriteReg, HostTx.allowed, hreg, hbusy]
    | false => by_cases hcmd : r = .cmd <;> simp [hostWriteReg, HostTx.allowed, hreg, hbusy, hcmd]

theorem hostReadReg_next_iff (o : Nat) :
    (∃ t, hostReadReg o s = .next t) ↔ HostTx.allowed s (.rdreg o) = true := by
  cases hreg : regAt o with
  | none => simp [hostReadReg, HostTx.allowed, hreg]
  | some r =>
    cases hbusy : s.busy with
    | true => by_cases hstatus : r = .status <;> simp [hostReadReg, HostTx.allowed, hreg, hbusy, hstatus]
    | false => simp [hostReadReg, HostTx.allowed, hreg, hbusy]

theorem hostWriteIbuf_next_iff (a : Nat) (bs : List Byte) :
    (∃ t, hostWriteIbuf a bs s = .next t) ↔ HostTx.allowed s (.wribuf a bs) = true := by
  cases hbusy : s.busy with
  | true => simp [hostWriteIbuf, HostTx.allowed, hbusy]
  | false =>
    by_cases hempty : bs = []
    · simp [hostWriteIbuf, HostTx.allowed, hbusy, hempty]
    rcases le_or_gt (a + bs.length) s.ibufBytes with hfits | hbeyond
    · simp [hostWriteIbuf, HostTx.allowed, hbusy, hempty, hfits, not_lt.mpr hfits]
    · simp [hostWriteIbuf, HostTx.allowed, hbusy, hempty, hbeyond, not_le.mpr hbeyond]

theorem hostReadIbuf_next_iff (a : Nat) :
    (∃ t, hostReadIbuf a s = .next t) ↔ HostTx.allowed s (.rdibuf a) = true := by
  cases hbusy : s.busy with
  | true => simp [hostReadIbuf, HostTx.allowed, hbusy]
  | false =>
    rcases lt_or_ge a s.ibufBytes with hinside | hbeyond
    · simp [hostReadIbuf, HostTx.allowed, hbusy, hinside, not_le.mpr hinside]
    · simp [hostReadIbuf, HostTx.allowed, hbusy, hbeyond, not_lt.mpr hbeyond]

theorem hostReadObufByte_next_iff (a : Nat) :
    (∃ t, hostReadObufByte a s = .next t) ↔ HostTx.allowed s (.rdobufByte a) = true := by
  cases hbusy : s.busy with
  | true => simp [hostReadObufByte, HostTx.allowed, hbusy]
  | false =>
    rcases lt_or_ge a s.obufBytes with hinside | hbeyond
    · simp [hostReadObufByte, HostTx.allowed, hbusy, hinside, not_le.mpr hinside]
    · simp [hostReadObufByte, HostTx.allowed, hbusy, hbeyond, not_lt.mpr hbeyond]

/-- R50: `OBUF_BYTES` is even. -/
theorem State.obufBytes_eq (s : State) : s.obufBytes = 2 * (s.ibufSize.val + 1) := by
  rw [State.obufBytes, State.ibufBytes, Config.blockBytes]
  omega

/-- R58: an even address inside `OBUF` has its second byte inside as well. -/
theorem State.succ_lt_obufBytes_iff {a : Nat} (heven : a % 2 = 0) : a + 1 < s.obufBytes ↔ ¬ s.obufBytes ≤ a := by
  rw [s.obufBytes_eq]
  omega

theorem hostReadObufHalf_next_iff (a : Nat) :
    (∃ t, hostReadObufHalf a s = .next t) ↔ HostTx.allowed s (.rdobufHalf a) = true := by
  cases hbusy : s.busy with
  | true => simp [hostReadObufHalf, HostTx.allowed, hbusy]
  | false =>
    by_cases heven : a % 2 = 0
    · by_cases hbeyond : s.obufBytes ≤ a <;>
        simp [hostReadObufHalf, HostTx.allowed, hbusy, heven, State.succ_lt_obufBytes_iff heven, hbeyond]
    · simp [hostReadObufHalf, HostTx.allowed, hbusy, heven]

end Rights

theorem hostStep_next_iff (t : HostTx) (s : State) : (∃ s', hostStep t s = .next s') ↔ t.allowed s = true := by
  cases t with
  | hreset => exact iff_of_true ⟨_, rfl⟩ rfl
  | wrreg o w => exact hostWriteReg_next_iff o w
  | rdreg o => exact hostReadReg_next_iff o
  | wribuf a bs => exact hostWriteIbuf_next_iff a bs
  | rdibuf a => exact hostReadIbuf_next_iff a
  | rdobufByte a => exact hostReadObufByte_next_iff a
  | rdobufHalf a => exact hostReadObufHalf_next_iff a

/-- Settles O46, transaction by transaction: `hostStep_next_iff`. -/
theorem hostMayDoExactlyTheTable : Obligations.HostMayDoExactlyTheTable := fun s t => hostStep_next_iff t s

/-! ### Which step does not go on (R191, U1) -/

theorem coreStep_goes_on (s : State) : ∃ t, coreStep s = .next t := by
  cases hrun : s.running with
  | none => exact ⟨_, coreStep_of_idle hrun⟩
  | some w =>
    obtain ⟨-, heq⟩ | ⟨f, -, heq⟩ | ⟨len, -, -, heq⟩ | ⟨c, -, heq⟩ := coreStep_running_cases hrun
    all_goals exact ⟨_, heq⟩

/-- Settles O55: the CORE's moves go on (`coreStep_goes_on`), and the host's do exactly where the transaction is allowed; taking
the move off the schedule changes no right. -/
theorem onlyTheHostStopsTheMachine : Obligations.OnlyTheHostStopsTheMachine := by
  intro s
  constructor
  · intro hstops
    obtain hmoves | ⟨tx, rest, hhost⟩ := s.coreMoves_or_host
    · obtain ⟨t, hcore⟩ := coreStep_goes_on (s.setSchedule s.schedule.tail)
      exact absurd ((step_of_coreMoves hmoves).trans hcore) (hstops t)
    · refine ⟨tx, rest, hhost, Bool.eq_false_iff.mpr fun hallowed => ?_⟩
      obtain ⟨t, hnext⟩ := (hostStep_next_iff tx (s.setSchedule rest)).mpr hallowed
      exact hstops t ((step_host hhost).trans hnext)
  · rintro ⟨tx, rest, hhost, hforbidden⟩ t hstep
    have hallowed : tx.allowed s = true := (hostStep_next_iff tx (s.setSchedule rest)).mp
      ⟨t, (step_host hhost).symm.trans hstep⟩
    rw [hforbidden] at hallowed
    cases hallowed

/-! ### What a transaction answers while `BUSY = 0` -/

section Answers

variable {s : State}

theorem hostStep_wrcmd (hrun : s.running = none) (w : Word) : hostStep (.wrcmd w) s = .next (s.accept w) := by
  simp [hostStep, HostTx.wrcmd, hostWriteReg, regAt, State.busy, hrun]

/-- R27, U7. -/
theorem hostStep_wrreg_readOnly (hrun : s.running = none) {o : Nat} {r : Reg} (hreg : regAt o = some r) (hr : r ≠ .cmd)
    (w : Word) : hostStep (.wrreg o w) s = .next s := by
  simp [hostStep, hostWriteReg, hreg, State.busy, hrun, hr]

theorem hostStep_rdreg (hrun : s.running = none) {o : Nat} {r : Reg} (hreg : regAt o = some r) :
    hostStep (.rdreg o) s = .next (s.observe (.word (s.regRead r))) := by
  simp [hostStep, hostReadReg, hreg, State.busy, hrun]

theorem hostStep_rdstatus (s : State) : hostStep .rdstatus s = .next (s.observe (.word s.statusWord)) := by
  simp [hostStep, HostTx.rdstatus, hostReadReg, regAt, State.regRead]

/-- R29. -/
theorem hostStep_reserved {o : Nat} (hreg : regAt o = none) :
    hostStep (.rdreg o) s = .refused (.reservedOffset o) ∧
      ∀ w, hostStep (.wrreg o w) s = .refused (.reservedOffset o) := by
  simp [hostStep, hostReadReg, hostWriteReg, hreg]

theorem hostStep_wribuf (hrun : s.running = none) {a : Nat} {bs : List Byte} (hfits : a + bs.length ≤ s.ibufBytes) :
    hostStep (.wribuf a bs) s = .next (s.setIbuf (s.ibuf.writeBytes a bs)) := by
  simp [hostStep, hostWriteIbuf, State.busy, hrun, not_lt.mpr hfits]

theorem hostStep_wribuf_beyond (hrun : s.running = none) {a : Nat} {bs : List Byte} (hbs : bs ≠ [])
    (hbeyond : s.ibufBytes < a + bs.length) : hostStep (.wribuf a bs) s = .fault (.noSuchAddress .ibuf a) := by
  simp [hostStep, hostWriteIbuf, State.busy, hrun, hbs, hbeyond]

theorem hostStep_rdibuf (hrun : s.running = none) {a : Nat} (ha : a < s.ibufBytes) :
    hostStep (.rdibuf a) s = .next (s.observe (.byte (s.byteAt .ibuf a))) := by
  simp [hostStep, hostReadIbuf, State.busy, hrun, not_le.mpr ha]

theorem hostStep_rdibuf_beyond (hrun : s.running = none) {a : Nat} (ha : s.ibufBytes ≤ a) :
    hostStep (.rdibuf a) s = .fault (.noSuchAddress .ibuf a) := by
  simp [hostStep, hostReadIbuf, State.busy, hrun, ha]

theorem hostStep_rdobufByte (hrun : s.running = none) {a : Nat} (ha : a < s.obufBytes) :
    hostStep (.rdobufByte a) s = .next (s.observe (.byte (s.byteAt .obuf a))) := by
  simp [hostStep, hostReadObufByte, State.busy, hrun, not_le.mpr ha]

theorem hostStep_rdobufByte_beyond (hrun : s.running = none) {a : Nat} (ha : s.obufBytes ≤ a) :
    hostStep (.rdobufByte a) s = .fault (.noSuchAddress .obuf a) := by
  simp [hostStep, hostReadObufByte, State.busy, hrun, ha]

/-- R6, R53: two bytes assembled little-endian. -/
theorem ofNat_memRead_two (byteAt : Nat → Byte) (a : Nat) :
    BitVec.ofNat 16 (memRead byteAt a 2) = byteAt (a + 1) ++ byteAt a := by
  apply BitVec.eq_of_toNat_eq
  have hlow := (byteAt a).isLt
  have hhigh := (byteAt (a + 1)).isLt
  rw [append_toNat, BitVec.toNat_ofNat, memRead, memRead, memRead]
  omega

theorem hostStep_rdobufHalf (hrun : s.running = none) {a : Nat} (heven : a % 2 = 0) (ha : a < s.obufBytes) :
    hostStep (.rdobufHalf a) s = .next (s.observe (.half (s.byteAt .obuf (a + 1) ++ s.byteAt .obuf a))) := by
  rw [← ofNat_memRead_two]
  simp [hostStep, hostReadObufHalf, State.busy, hrun, heven, not_le.mpr ha]

theorem hostStep_rdobufHalf_misaligned (hrun : s.running = none) {a : Nat} (hodd : a % 2 ≠ 0) :
    hostStep (.rdobufHalf a) s = .refused (.misalignedRead a) := by
  simp [hostStep, hostReadObufHalf, State.busy, hrun, hodd]

theorem hostStep_rdobufHalf_beyond (hrun : s.running = none) {a : Nat} (heven : a % 2 = 0) (ha : s.obufBytes ≤ a) :
    hostStep (.rdobufHalf a) s = .fault (.noSuchAddress .obuf a) := by
  simp [hostStep, hostReadObufHalf, State.busy, hrun, heven, ha]

end Answers

/-- Settles O7: `hostStep_wrcmd` in the state with the transaction taken off; `BUSY` is bit 0 of `STATUS`. -/
theorem wrcmdStartsACommand : Obligations.WrcmdStartsACommand := fun s w rest hrun hschedule =>
  ⟨(step_host hschedule).trans (hostStep_wrcmd (s := s.setSchedule rest) hrun w), State.statusWord_bit_zero _⟩

/-- Settles O45: one lemma for a read, one for an ignored write, at each offset of the table of R27. -/
theorem registerWindow : Obligations.RegisterWindow := by
  refine ⟨fun s hrun => ⟨hostStep_rdreg hrun (r := .cmd) rfl, hostStep_rdreg hrun (r := .volf) rfl,
    hostStep_rdreg hrun (r := .carryI) rfl, hostStep_rdreg hrun (r := .carryQ) rfl, hostStep_rdreg hrun (r := .ocount) rfl,
    hostStep_wrcmd hrun, ?_⟩, hostStep_rdstatus⟩
  rintro o w (rfl | rfl | rfl | rfl | rfl)
  all_goals exact hostStep_wrreg_readOnly hrun rfl (by decide) w

/-- R29: the window ends at 0x18 and has a register at multiples of 4 only. -/
theorem regAt_eq_none {o : Nat} (h : 24 ≤ o ∨ o % 4 ≠ 0) : regAt o = none := by
  unfold regAt
  split
  case h_7 => rfl
  all_goals omega

/-- Settles O47: each access has its lemma above, by the first check that it fails. -/
theorem reservedAccessesStop : Obligations.ReservedAccessesStop := fun _ =>
  ⟨fun _ ho => hostStep_reserved (regAt_eq_none ho), fun hrun =>
    ⟨fun _ => hostStep_rdibuf_beyond hrun, fun _ b bs => hostStep_wribuf_beyond hrun (List.cons_ne_nil b bs),
      fun _ => hostStep_rdobufByte_beyond hrun, fun _ => hostStep_rdobufHalf_misaligned hrun,
      fun _ => hostStep_rdobufHalf_beyond hrun⟩⟩

/-! ### The bytes of the two memories (R50, R53) -/

section WriteBytes

variable (s : State) {addr : Nat} {bytes : List Byte}

theorem State.byteAt_writeBytes_inside {i : Nat} (hi : i < bytes.length) :
    (s.setIbuf (s.ibuf.writeBytes addr bytes)).byteAt .ibuf (addr + i) = bytes[i] := by
  rw [State.byteAt_ibuf, State.setIbuf_ibuf, Memory.get?_writeBytes_inside _ _ _ _ hi, Option.getD_some]

theorem State.byteAt_writeBytes_outside {a : Nat} (ha : a < addr ∨ addr + bytes.length ≤ a) :
    (s.setIbuf (s.ibuf.writeBytes addr bytes)).byteAt .ibuf a = s.byteAt .ibuf a := by
  rw [State.byteAt_ibuf, State.setIbuf_ibuf, Memory.get?_writeBytes_outside _ _ _ _ ha, State.setIbuf_epoch,
    ← State.byteAt_ibuf]

end WriteBytes

/-- Settles O48: the bytes written by `State.byteAt_writeBytes_inside`, the others by `State.byteAt_writeBytes_outside`, and what
the host reads by `hostStep_rdibuf`. -/
theorem wribufWritesItsBytes : Obligations.WribufWritesItsBytes := by
  refine ⟨fun s addr bytes hrun hfits => ?_, fun s a hrun => hostStep_rdibuf hrun⟩
  refine ⟨_, hostStep_wribuf hrun hfits, fun i hi => ?_, fun a => s.byteAt_writeBytes_outside, fun _ => rfl, rfl⟩
  have hread := hostStep_rdibuf (s := s.setIbuf (s.ibuf.writeBytes addr bytes)) hrun (a := addr + i)
    (show addr + i < s.ibufBytes by omega)
  rw [s.byteAt_writeBytes_inside hi] at hread
  exact ⟨s.byteAt_writeBytes_inside hi, hread⟩

/-- Settles O49: the three reads by their lemmas. -/
theorem obufIsLittleEndian : Obligations.ObufIsLittleEndian := fun _ k hrun hinside =>
  ⟨hostStep_rdobufByte hrun (by omega), hostStep_rdobufByte hrun hinside,
    hostStep_rdobufHalf hrun (Nat.mul_mod_right 2 k) (by omega)⟩

end Sys2Proof.Machine
end

section
/-! PROOFS of the statements about the commands (46_commands.md, 45_carryover.md, 41_decimator.md). An accepted PROCESS leaves
`State.processed`, so each claim is one about its fields: the bytes stored by `processBlocks_obuf_get?`, the carryover by
`prevOf`. What a PROCESS depends on follows from what `prevOf` and `sampleOf` do. -/

namespace Sys2Proof.Machine

/-! ### SETVOL (R172) -/

theorem outputSample_scale_zero (acc : Rat) : outputSample acc (scale 0#16) = 0#16 := by
  obtain ⟨hzero, -⟩ := scale_listed_values
  rw [outputSample, hzero, gain, fmul, mul_zero, rn32_zero]
  rfl

/-- Settles O15: the effect is that of the two updates of `execSetvol`. -/
theorem setvolWritesTheFactorOnly : Obligations.SetvolWritesTheFactorOnly := fun factor _ =>
  ⟨encode_setvol_toNat factor, rfl, rfl, outputSample_scale_zero⟩

/-! ### The units, spelled out (R54, R110, R114, R174) -/

/-- Settles O19: `block_out` gives the sum of the eight angles, turn by turn of the loop, and `block_prev` what is handed on. -/
theorem blockIsThePipeline : Obligations.BlockIsThePipeline := fun byteAt sc k prev =>
  ⟨block_prev byteAt sc k prev, block_out byteAt sc k prev⟩

/-- R110 in the form of a sum over a list. -/
theorem dec1_eq_sum (samples : Nat → Int) : dec1 samples = ((List.range 8).map samples).sum := by
  rw [dec1_eq]
  simp [List.range_succ, add_assoc]

/-- Settles O20: stage 1 sums the converted bytes, and the conversion subtracts 128 (`sconv_eq`). -/
theorem decimatedSampleIsTheSum : Obligations.DecimatedSampleIsTheSum := by
  intro byteAt k t
  have hI : deintI byteAt (groupBase k t) = fun j => ((byteAt (128 * k + 16 * t + 2 * j)).toNat : Int) - 128 :=
    funext fun _ => sconv_eq _
  have hQ : deintQ byteAt (groupBase k t) = fun j => ((byteAt (128 * k + 16 * t + 2 * j + 1)).toNat : Int) - 128 :=
    funext fun _ => sconv_eq _
  rw [decimate, dec1_eq_sum, dec1_eq_sum, hI, hQ]
  exact ⟨rfl, rfl⟩

/-! ### What an accepted PROCESS stores (R55, R154, R173) -/

section Stored

variable (s : State) {n k : Nat}

theorem State.processed_byteAt_below {a : Nat} (h : a < 2 * n) : (s.processed n).byteAt .obuf a =
    BitVec.ofNat 8 ((s.sampleOf (a / 2)).toNat / 256 ^ (a % 2)) := by
  rw [State.byteAt_obuf, State.processed_obuf, processBlocks_obuf_get? s h, Option.getD_some]

theorem State.processed_byteAt_low (hk : k < n) :
    (s.processed n).byteAt .obuf (sampleAddr k) = (s.sampleOf k).extractLsb' 0 8 := by
  rw [sampleAddr, s.processed_byteAt_below (by omega), Nat.mul_div_cancel_left k two_pos, Nat.mul_mod_right]
  apply BitVec.eq_of_toNat_eq
  rw [BitVec.toNat_ofNat, BitVec.extractLsb'_toNat, Nat.shiftRight_zero, pow_zero, Nat.div_one]

theorem State.processed_byteAt_high (hk : k < n) :
    (s.processed n).byteAt .obuf (sampleAddr k + 1) = (s.sampleOf k).extractLsb' 8 8 := by
  rw [sampleAddr, s.processed_byteAt_below (by omega), Nat.mul_add_div two_pos, Nat.mul_add_mod]
  apply BitVec.eq_of_toNat_eq
  rw [BitVec.toNat_ofNat, BitVec.extractLsb'_toNat, Nat.shiftRight_eq_div_pow]
  norm_num

/-- R173: the frame of PROCESS. -/
theorem State.processed_eq (n : Nat) : s.processed n =
    { s with
      carryI := (s.processed n).carryI, carryQ := (s.processed n).carryQ, obuf := (s.processed n).obuf
      ocount := (s.processed n).ocount, errcode := .ok, running := none } := by
  unfold State.processed State.writeBack
  split_ifs <;> rfl

end Stored

/-- Settles O16: below `2 * N` the byte stored by the block of its address, from there on the byte that was there. -/
theorem processStoresTheSamples : Obligations.ProcessStoresTheSamples := by
  intro s len haccepts
  obtain ⟨-, hcount⟩ := State.accepts_fits haccepts
  refine ⟨_, execProcess_of_accepts haccepts,
    fun k hk => ⟨s.processed_sample _ hk, s.processed_byteAt_low hk, s.processed_byteAt_high hk⟩, fun a ha => ?_,
    fun a => congrFun (s.processed_byteAt_ibuf _) a, fun hzero => ?_, fun hn => ?_, ?_, s.processed_errcode _,
    s.processed_running _, s.processed_eq _⟩
  · refine s.processed_byteAt_above _ (not_lt.mp fun hlt => ?_)
    obtain ⟨hlow, hhigh⟩ := ha (a / 2) (by omega)
    rw [sampleAddr] at hlow hhigh
    omega
  · rw [hzero]
    exact s.processed_carry_zero
  · obtain ⟨m, hm⟩ := Nat.exists_eq_add_of_le' hn
    rw [hm]
    exact s.processed_carry_succ m
  · rw [State.processed_ocount, BitVec.toNat_ofNat]
    exact Nat.mod_eq_of_lt (by omega)

/-! ### What a PROCESS depends on (R54, R165, R172) -/

/-- R161, R54: the sample before block `k` depends on the carryover, for block 0, and on the bytes of block `k - 1`. -/
theorem State.prevOf_congr {s s' : State} {k : Nat} (hcarry : k = 0 → s.carry = s'.carry)
    (hbytes : ∀ a, a < 128 * k → s.byteAt .ibuf a = s'.byteAt .ibuf a) : s.prevOf k = s'.prevOf k := by
  cases k with
  | zero => exact hcarry rfl
  | succ k => exact decimate_congr fun i hi => hbytes _ (by rw [groupBase]; omega)

/-- Settles O23: sample and carryover come from `prevOf` and the bytes of blocks below `N`, all below `LEN`. -/
theorem processReadsOnlyItsLength : Obligations.ProcessReadsOnlyItsLength := by
  intro s s' t t' len haccepts haccepts' hvolf hcarryI hcarryQ hbytes hexec hexec'
  obtain rfl := eq_processed_of_exec haccepts hexec
  obtain rfl := eq_processed_of_exec haccepts' hexec'
  have hblocks : 128 * lenBlocks len ≤ len.toNat := Nat.mul_div_le _ _
  have hprev : ∀ k, k ≤ lenBlocks len → s.prevOf k = s'.prevOf k := fun k hk =>
    State.prevOf_congr (fun _ => State.carry_eq_iff.mpr ⟨hcarryI, hcarryQ⟩) fun a ha => hbytes a (by omega)
  obtain ⟨hfinalI, hfinalQ⟩ := State.carry_eq_iff.mp
    ((s.processed_carry _).trans ((hprev _ le_rfl).trans (s'.processed_carry _).symm))
  refine ⟨hfinalI, hfinalQ, by rw [State.processed_ocount, State.processed_ocount], fun k hk => ?_⟩
  rw [s.processed_sample _ hk, s'.processed_sample _ hk]
  exact State.sampleOf_congr hvolf (hprev k hk.le) fun i hi => hbytes _ (by omega)

/-- R165: the sample before a block other than block 0 is that of a group of the input. -/
theorem State.prevOf_setCarry (s : State) (i q : Word) {k : Nat} (hk : 1 ≤ k) : (s.setCarry i q).prevOf k = s.prevOf k :=
  State.prevOf_congr (fun hzero => absurd hzero (by omega)) fun _ _ => rfl

/-- Settles O26: the carryover is `prevOf 0`, and nothing else reads it. -/
theorem staleCarryoverTouchesOneSample : Obligations.StaleCarryoverTouchesOneSample := by
  intro s t t' len i q haccepts hexec hexec'
  obtain rfl := eq_processed_of_exec haccepts hexec
  obtain rfl := eq_processed_of_exec (s := s.setCarry i q) haccepts hexec'
  refine ⟨fun k hone hk => ?_, fun hn => State.carry_eq_iff.mp ?_⟩
  · rw [s.processed_sample _ hk, (s.setCarry i q).processed_sample _ hk]
    exact State.sampleOf_congr rfl (s.prevOf_setCarry i q hone).symm fun _ _ => rfl
  · rw [s.processed_carry, (s.setCarry i q).processed_carry, s.prevOf_setCarry i q hn]

/-- R172: the factor is no part of the angle path. -/
theorem State.prevOf_setVolf (s : State) (factor : BitVec 16) (k : Nat) : (s.setVolf factor).prevOf k = s.prevOf k :=
  State.prevOf_congr (fun _ => rfl) fun _ _ => rfl

theorem State.processed_setVolf (s : State) (factor : BitVec 16) (n : Nat) : (s.setVolf factor).processed n =
    { s.processed n with volf := factor, obuf := ((s.setVolf factor).processed n).obuf } := by
  simp only [State.processed, processBlocks_prev, State.prevOf_setVolf]
  unfold State.writeBack
  split_ifs <;> rfl

/-- Settles O27: the checks of PROCESS read no factor, so both runs end alike; a rejection keeps both factors, and for an accepted
PROCESS `State.processed_setVolf` holds. -/
theorem factorLeavesTheCarryover : Obligations.FactorLeavesTheCarryover := by
  intro s t t' len factor hexec hexec'
  obtain ⟨hmisaligned, heq⟩ | ⟨haligned, hbeyond, heq⟩ | ⟨haccepts, heq⟩ := execProcess_cases len s
  all_goals obtain rfl := Host.Outcome.next.inj (heq.symm.trans hexec)
  · obtain rfl := Host.Outcome.next.inj
      ((execProcess_of_misaligned (s := s.setVolf factor) hmisaligned).symm.trans hexec')
    rfl
  · obtain rfl := Host.Outcome.next.inj
      ((execProcess_of_beyond (s := s.setVolf factor) haligned hbeyond).symm.trans hexec')
    rfl
  · obtain rfl := eq_processed_of_exec (s := s.setVolf factor) haccepts hexec'
    exact s.processed_setVolf factor _

end Sys2Proof.Machine
end

section
/-! PROOFS of R11 as the spec states it: `rn32` gives the element of F32 nearest to its argument, of two equally near ones the one
with an even fraction. The rounded value is a whole number `m` of ulps. Two facts settle it. First, `m` ulps at the exponent
`E` are the value of one word, `2^23 * (E + 126) + m`, whose lowest bit is the parity of `m` (`f32_ofNat_ulps`). Second, every
other value of F32 is a whole number of ulps too, or is farther away than the least power of two of the binade
(`InF32.ulps_or_farther`). -/

namespace Sys2Proof.Machine

/-! ### The nearest integer (R11) -/

/-- A rounding by one half is a tie, which goes to the even integer. -/
theorem roundHalfEven_even_of_tie {n : Rat} (h : |(roundHalfEven n : Rat) - n| = 1 / 2) : roundHalfEven n % 2 = 0 := by
  have hlow := Int.floor_le n
  have hhigh := Int.lt_floor_add_one n
  unfold roundHalfEven at h ⊢
  simp only at h ⊢
  split_ifs at h ⊢ with hbelow habove heven
  · rw [abs_of_nonpos (by linarith)] at h; linarith
  · push_cast at h
    rw [abs_of_nonneg (by linarith)] at h; linarith
  · exact heven
  · omega

theorem roundHalfEven_nearest (n : Rat) (z : Int) :
    |n - roundHalfEven n| ≤ |n - z| ∧
      (|n - roundHalfEven n| = |n - z| → z ≠ roundHalfEven n → roundHalfEven n % 2 = 0) := by
  have hnear := roundHalfEven_near n
  rw [abs_sub_comm] at hnear
  by_cases hz : z = roundHalfEven n
  · subst hz
    exact ⟨le_rfl, fun _ hne => absurd rfl hne⟩
  · have hapart : (1 : Rat) ≤ |(roundHalfEven n : Rat) - z| := by
      exact_mod_cast Int.one_le_abs (sub_ne_zero.mpr (Ne.symm hz))
    have htriangle := abs_sub_le (roundHalfEven n : Rat) n z
    rw [abs_sub_comm (roundHalfEven n : Rat) n] at htriangle
    refine ⟨by linarith, fun htie _ => roundHalfEven_even_of_tie ?_⟩
    rw [abs_sub_comm]
    linarith

/-! ### The word of a number of ulps (R10) -/

theorem f32Finite_ofNat {n : Nat} (h : n < 255 * 2 ^ 23) : f32Finite (BitVec.ofNat 32 n) = true := by
  have hexp : (BitVec.ofNat 32 n).extractLsb' 23 8 ≠ 255#8 := by
    rw [Ne, extractLsb'_eq_iff, BitVec.toNat_ofNat, BitVec.toNat_ofNat]
    omega
  simpa [f32Finite] using hexp

theorem f32_ofNat {n : Nat} (h : n < 255 * 2 ^ 23) : f32 (BitVec.ofNat 32 n) =
    if n / 2 ^ 23 = 0 then (2 : Rat) ^ (-126 : Int) * ((n % 2 ^ 23 : Nat) / 2 ^ 23)
    else (2 : Rat) ^ (((n / 2 ^ 23 : Nat) : Int) - 127) * (1 + (n % 2 ^ 23 : Nat) / 2 ^ 23) := by
  have hvalue : (BitVec.ofNat 32 n).toNat = n := Nat.mod_eq_of_lt (by omega)
  have hexp : ((BitVec.ofNat 32 n).extractLsb' 23 8).toNat = n / 2 ^ 23 := by
    rw [BitVec.extractLsb'_toNat, hvalue, Nat.shiftRight_eq_div_pow]
    exact Nat.mod_eq_of_lt (by omega)
  have hfrac : ((BitVec.ofNat 32 n).extractLsb' 0 23).toNat = n % 2 ^ 23 := by
    rw [BitVec.extractLsb'_toNat, hvalue, Nat.shiftRight_zero]
  have hsign : (BitVec.ofNat 32 n).getLsbD 31 = false := by
    rw [getLsbD_eq_iff, hvalue, Bool.toNat_false]
    omega
  rw [f32, hexp, hfrac, hsign]
  rfl

/-- The word with exponent field 0. -/
theorem f32_ofNat_subnormal {m : Nat} (hm : m < 2 ^ 23) : f32 (BitVec.ofNat 32 m) = m * (2 : Rat) ^ (-149 : Int) := by
  rw [f32_ofNat (by omega), if_pos (by omega), Nat.mod_eq_of_lt hm]
  norm_num
  ring

/-- The word with exponent field `e + 1` and fraction `f`. -/
theorem f32_ofNat_normal {e f : Nat} (hf : f < 2 ^ 23) (h : (e + 1) * 2 ^ 23 + f < 255 * 2 ^ 23) :
    f32 (BitVec.ofNat 32 ((e + 1) * 2 ^ 23 + f)) = (2 ^ 23 + f : Nat) * (2 : Rat) ^ ((e : Int) - 149) := by
  have hdiv : ((e + 1) * 2 ^ 23 + f) / 2 ^ 23 = e + 1 := by omega
  have hmod : ((e + 1) * 2 ^ 23 + f) % 2 ^ 23 = f := by omega
  have hexp : ((e + 1 : Nat) : Int) - 127 = (e : Int) - 149 + 23 := by push_cast; ring
  rw [f32_ofNat h, hdiv, hmod, if_neg (Nat.succ_ne_zero e), hexp, zpow_add₀ two_ne_zero]
  push_cast
  norm_num
  ring

/-- `m` ulps at the exponent `k - 126`: the word is `2^23 * k + m`, also where `m` is 2^24 and carries into the exponent, and
where `k` is 0 and `m` too small for a leading 1. -/
theorem f32_ofNat_ulps {k m : Nat} (hm : m ≤ 2 ^ 24) (hk : k = 0 ∨ 2 ^ 23 ≤ m) (h : k * 2 ^ 23 + m < 255 * 2 ^ 23) :
    f32 (BitVec.ofNat 32 (k * 2 ^ 23 + m)) = m * (2 : Rat) ^ ((k : Int) - 149) := by
  rcases lt_or_ge m (2 ^ 23) with hsub | hnormal
  · obtain rfl : k = 0 := hk.resolve_right (not_le.mpr hsub)
    rw [Nat.zero_mul, Nat.zero_add, f32_ofNat_subnormal hsub]
    rfl
  rcases hm.lt_or_eq with hlt | rfl
  · have hword : k * 2 ^ 23 + m = (k + 1) * 2 ^ 23 + (m - 2 ^ 23) := by omega
    rw [hword] at h ⊢
    rw [f32_ofNat_normal (by omega) h, Nat.add_sub_cancel' hnormal]
  · have hword : k * 2 ^ 23 + 2 ^ 24 = (k + 1 + 1) * 2 ^ 23 + 0 := by ring
    have hexp : ((k + 1 : Nat) : Int) - 149 = (k : Int) - 149 + 1 := by push_cast; ring
    rw [hword] at h ⊢
    rw [f32_ofNat_normal (by norm_num) h, hexp, zpow_add₀ two_ne_zero]
    norm_num
    ring

theorem ofNat_ulps_bit_zero {k m : Nat} (hm : m % 2 = 0) : (BitVec.ofNat 32 (k * 2 ^ 23 + m)).getLsbD 0 = false := by
  rw [getLsbD_eq_iff, BitVec.toNat_ofNat, Bool.toNat_false]
  omega

/-! ### The sign (R10) -/

/-- The word with the other sign: the same finite magnitude and fraction. -/
theorem f32_flip_sign (w : Word) :
    f32Finite (w ^^^ 0x80000000#32) = f32Finite w ∧ f32 (w ^^^ 0x80000000#32) = -f32 w ∧
      (w ^^^ 0x80000000#32).getLsbD 0 = w.getLsbD 0 := by
  have hexp : (w ^^^ 0x80000000#32).extractLsb' 23 8 = w.extractLsb' 23 8 := by
    rw [BitVec.extractLsb'_xor, show (0x80000000#32).extractLsb' 23 8 = 0#8 from rfl, BitVec.xor_zero]
  have hfrac : (w ^^^ 0x80000000#32).extractLsb' 0 23 = w.extractLsb' 0 23 := by
    rw [BitVec.extractLsb'_xor, show (0x80000000#32).extractLsb' 0 23 = 0#23 from rfl, BitVec.xor_zero]
  have hsign : (w ^^^ 0x80000000#32).getLsbD 31 = !w.getLsbD 31 := by
    rw [BitVec.getLsbD_xor, show (0x80000000#32).getLsbD 31 = true from rfl, Bool.xor_true]
  have hlast : (w ^^^ 0x80000000#32).getLsbD 0 = w.getLsbD 0 := by
    rw [BitVec.getLsbD_xor, show (0x80000000#32).getLsbD 0 = false from rfl, Bool.xor_false]
  refine ⟨by rw [f32Finite, f32Finite, hexp], ?_, hlast⟩
  rw [f32, f32, hexp, hfrac, hsign]
  cases w.getLsbD 31 <;> simp

theorem InF32.neg {q : Rat} (h : InF32 q) : InF32 (-q) := by
  obtain ⟨w, hfinite, rfl⟩ := h
  obtain ⟨hfinite', hvalue, -⟩ := f32_flip_sign w
  exact ⟨_, hfinite'.trans hfinite, hvalue⟩

/-- R11: the value has a word with an even fraction. -/
def HasEvenWord (q : Rat) : Prop := ∃ w : Word, f32Finite w = true ∧ f32 w = q ∧ w.getLsbD 0 = false

theorem HasEvenWord.neg {q : Rat} (h : HasEvenWord q) : HasEvenWord (-q) := by
  obtain ⟨w, hfinite, rfl, heven⟩ := h
  obtain ⟨hfinite', hvalue, hlast⟩ := f32_flip_sign w
  exact ⟨_, hfinite'.trans hfinite, hvalue, hlast.trans heven⟩

/-! ### The rounded value in ulps (R11) -/

section Ulps

variable {q : Rat}

/-- A power of two in ulps of `q`. -/
theorem two_zpow_eq_ulps (q : Rat) (n : Nat) : ((2 ^ n : Int) : Rat) * ulpOf q = (2 : Rat) ^ (roundExponent q - 23 + n) := by
  rw [ulpOf, zpow_add₀ two_ne_zero, zpow_natCast, mul_comm]
  push_cast
  rfl

theorem ulps_nonneg (hq : 0 < q) : 0 ≤ roundHalfEven (q / ulpOf q) :=
  le_roundHalfEven (by simpa using div_nonneg hq.le (ulpOf_pos q).le)

theorem ulps_le (hq : 0 < q) : roundHalfEven (q / ulpOf q) ≤ 2 ^ 24 := by
  obtain ⟨-, hbelow, -⟩ := roundExponent_spec hq
  refine roundHalfEven_le ?_
  rw [div_le_iff₀ (ulpOf_pos q), two_zpow_eq_ulps]
  exact hbelow.le.trans (two_zpow_mono (by omega))

theorem le_ulps (hq : 0 < q) (hnormal : -126 < roundExponent q) : 2 ^ 23 ≤ roundHalfEven (q / ulpOf q) := by
  obtain ⟨-, -, hfoot⟩ := roundExponent_spec hq
  refine le_roundHalfEven ?_
  rw [le_div_iff₀ (ulpOf_pos q), two_zpow_eq_ulps]
  exact (two_zpow_mono (by omega)).trans (hfoot hnormal)

/-- R11: below the midpoint of the last binade and 2^128 no number of ulps carries into the exponent of infinity. -/
theorem ulps_of_finite (hq : 0 < q) (h : q < 2 ^ 128 - 2 ^ 103) :
    roundExponent q < 127 ∨ roundExponent q = 127 ∧ roundHalfEven (q / ulpOf q) < 2 ^ 24 := by
  obtain ⟨-, -, hfoot⟩ := roundExponent_spec hq
  have hle : roundExponent q ≤ 127 := by
    by_contra hc
    have hlarge : (2 : Rat) ^ (128 : Int) ≤ q := (two_zpow_mono (by omega)).trans (hfoot (by omega))
    norm_num at hlarge h
    linarith
  refine hle.lt_or_eq.imp_right fun heq => ⟨heq, ?_⟩
  have hquot : q / ulpOf q < 2 ^ 24 - 1 / 2 := by
    rw [div_lt_iff₀ (ulpOf_pos q), ulpOf, heq]
    norm_num at h ⊢
    linarith
  have hnear := (abs_le.mp (roundHalfEven_near (q / ulpOf q))).2
  have hlt : (roundHalfEven (q / ulpOf q) : Rat) < 2 ^ 24 := by linarith
  exact_mod_cast hlt

/-- R11: the rounded value is that of a finite word, whose lowest bit is the parity of its number of ulps. -/
theorem rn32_word (hq : 0 < q) (h : q < 2 ^ 128 - 2 ^ 103) :
    ∃ w : Word, f32Finite w = true ∧ f32 w = rn32 q ∧ (roundHalfEven (q / ulpOf q) % 2 = 0 → w.getLsbD 0 = false) := by
  obtain ⟨hleast, -, -⟩ := roundExponent_spec hq
  have hle := ulps_le hq
  have hge := le_ulps hq
  have hfinite := ulps_of_finite hq h
  obtain ⟨k, hk⟩ := Int.eq_ofNat_of_zero_le (show 0 ≤ roundExponent q + 126 by omega)
  obtain ⟨m, hm⟩ := Int.eq_ofNat_of_zero_le (ulps_nonneg hq)
  have hulp : ulpOf q = (2 : Rat) ^ ((k : Int) - 149) := by rw [ulpOf]; congr 1; omega
  have hword : k * 2 ^ 23 + m < 255 * 2 ^ 23 := by omega
  refine ⟨_, f32Finite_ofNat hword, ?_, fun heven => ofNat_ulps_bit_zero (by omega)⟩
  rw [f32_ofNat_ulps (by omega) (by omega) hword, rn32_of_pos hq, hm, ← hulp]
  rfl

end Ulps

/-- Another value of F32 is a whole number of ulps of `q`, or farther from `q` than the power of two at the foot of the binade
of `q`, which is a whole number of them. -/
theorem InF32.ulps_or_farther {q f : Rat} (hq : 0 < q) (hf : InF32 f) :
    (∃ z : Int, f = z * ulpOf q) ∨ |q - ((2 ^ 23 : Int) : Rat) * ulpOf q| < |q - f| := by
  obtain ⟨hleast, -, hnormal⟩ := roundExponent_spec hq
  rcases hleast.eq_or_lt with hsub | hlt
  · obtain ⟨m, e, -, he, -, rfl⟩ := hf.grid
    obtain ⟨d, hd⟩ := Int.eq_ofNat_of_zero_le (show 0 ≤ e + 149 by omega)
    refine .inl ⟨m * 2 ^ d, ?_⟩
    rw [ulpOf, ← hsub, show e = d + (-126 - 23) by omega, zpow_add₀ two_ne_zero, zpow_natCast]
    push_cast
    ring
  · have hfoot : ((2 ^ 23 : Int) : Rat) * ulpOf q = (2 : Rat) ^ roundExponent q := by
      rw [two_zpow_eq_ulps]; congr 1; omega
    rcases le_or_gt ((2 : Rat) ^ roundExponent q) f with hbinade | hbelow
    · refine .inl (rounded_multiple (rn32_of_inF32 hf) ?_)
      rw [sub_add_cancel]
      exact hbinade.trans (le_abs_self f)
    · have hge := hnormal hlt
      refine .inr ?_
      rw [hfoot, abs_of_nonneg (by linarith), abs_of_pos (by linarith)]
      linarith

/-- R11 for a positive value. -/
theorem rn32_nearest_of_pos {q f : Rat} (hq : 0 < q) (h : q < 2 ^ 128 - 2 ^ 103) (hf : InF32 f) :
    |q - rn32 q| ≤ |q - f| ∧ (|q - rn32 q| = |q - f| → f ≠ rn32 q → HasEvenWord (rn32 q)) := by
  have hu := ulpOf_pos q
  have hdist : ∀ z : Int, |q - z * ulpOf q| = |q / ulpOf q - z| * ulpOf q := fun z => by
    rw [← abs_of_pos hu, ← abs_mul, abs_of_pos hu, sub_mul, div_mul_cancel₀ _ hu.ne']
  obtain ⟨w, hfinite, hvalue, heven⟩ := rn32_word hq h
  have hround := rn32_of_pos hq
  obtain ⟨z, rfl⟩ | hfarther := hf.ulps_or_farther hq
  · obtain ⟨hle, htie⟩ := roundHalfEven_nearest (q / ulpOf q) z
    rw [hround, hdist, hdist]
    refine ⟨mul_le_mul_of_nonneg_right hle hu.le, fun heq hne => ⟨w, hfinite, hvalue.trans hround, heven ?_⟩⟩
    refine htie (mul_right_cancel₀ hu.ne' heq) ?_
    rintro rfl
    exact hne rfl
  · have hlt : |q - rn32 q| < |q - f| := by
      refine lt_of_le_of_lt ?_ hfarther
      rw [hround, hdist, hdist]
      exact mul_le_mul_of_nonneg_right (roundHalfEven_nearest _ _).1 hu.le
    exact ⟨hlt.le, fun heq => absurd heq hlt.ne⟩

/-- Settles O28: `rn32_word` and `rn32_nearest_of_pos` for positive values; for negative ones both sides change sign, and 0
rounds to itself. -/
theorem roundingIsToNearestEven : Obligations.RoundingIsToNearestEven := by
  intro q hbound
  rcases lt_trichotomy q 0 with hneg | rfl | hpos
  · have hq : 0 < -q := neg_pos.mpr hneg
    have h : -q < 2 ^ 128 - 2 ^ 103 := by rwa [abs_of_neg hneg] at hbound
    have hdist : ∀ f : Rat, |-q - -f| = |q - f| := fun f => by rw [← abs_neg]; congr 1; ring
    have hround : rn32 q = -rn32 (-q) := by rw [rn32_neg, neg_neg]
    obtain ⟨w, hfinite, hvalue, -⟩ := rn32_word hq h
    refine ⟨hround ▸ InF32.neg ⟨w, hfinite, hvalue⟩, fun f hf => ?_⟩
    obtain ⟨hle, htie⟩ := rn32_nearest_of_pos hq h hf.neg
    rw [rn32_neg, hdist, hdist] at hle
    rw [rn32_neg, hdist, hdist] at htie
    refine ⟨hle, fun heq hne => ?_⟩
    rw [← neg_neg (rn32 q)]
    exact (htie heq fun hf => hne (neg_injective hf)).neg
  · rw [rn32_zero]
    refine ⟨⟨0#32, rfl, by decide +kernel⟩, fun f _ => ⟨by simp, fun heq hne => absurd ?_ hne⟩⟩
    simpa using heq.symm
  · have h : q < 2 ^ 128 - 2 ^ 103 := by rwa [abs_of_pos hpos] at hbound
    obtain ⟨w, hfinite, hvalue, -⟩ := rn32_word hpos h
    exact ⟨⟨w, hfinite, hvalue⟩, fun f hf => rn32_nearest_of_pos hpos h hf⟩

/-- Settles O29: a value of F32 is on the grid that `rn32` leaves as it is. -/
theorem roundingFixesF32 : Obligations.RoundingFixesF32 := fun _ => rn32_of_inF32

end Sys2Proof.Machine
end

section
/-! PROOFS of the statements about the arctangent's symmetries, the output stage and the range of the datapath (43_arctangent.md,
44_output_stage.md, R13). The symmetries act on the three corrections, since the ratio reads magnitudes only. The bounds go up
the datapath by the monotonicity of rounding; below, each value is 0 or not under a power of two that is in F32, down to the
angles, which are multiples of 2^-45, as is every sum of them. -/

namespace Sys2Proof.Machine

/-! ### The symmetries of the arctangent (R140) -/

theorem octantAngle_congr_abs {x y x' y' : Rat} (hx : |x| = |x'|) (hy : |y| = |y'|) : octantAngle x y = octantAngle x' y' := by
  simp only [octantAngle, octantRatio, fabs_eq_abs, hx, hy]

theorem atan2a_neg_right (x : Rat) {y : Rat} (hy : y ≠ 0) : atan2a x (-y) = -atan2a x y := by
  rw [atan2a_eq, atan2a_eq, octantAngle_congr_abs rfl (abs_neg y)]
  rcases lt_or_gt_of_ne hy with hneg | hpos
  · rw [signCorrect_of_neg hneg, signCorrect_of_nonneg (neg_nonneg.mpr hneg.le), neg_neg]
  · rw [signCorrect_of_nonneg hpos.le, signCorrect_of_neg (neg_neg_of_pos hpos)]

/-- R136: left of the `y` axis the angle of the upper half plane is that of the mirror image, from `PI32`. -/
theorem atan2a_neg_left {x : Rat} (hx : 0 < x) (y : Rat) :
    atan2a (-x) y = if y < 0 then -fsub pi32 (atan2a x |y|) else fsub pi32 (atan2a x |y|) := by
  have hmirror : atan2a x |y| = octantAngle (-x) y := by
    rw [atan2a_eq, signCorrect_of_nonneg (abs_nonneg y), quadrant_of_nonneg hx.le,
      octantAngle_congr_abs (abs_neg x).symm (abs_abs y)]
  rw [atan2a_eq, quadrant_of_neg (neg_neg_of_pos hx), hmirror]
  rfl

theorem ratio_mul_left {c : Rat} (hc : 0 < c) (mn mx : Rat) : ratio (c * mn) (c * mx) = ratio mn mx := by
  by_cases hmx : mx = 0
  · simp [ratio, hmx]
  · simp [ratio, fdiv, hmx, hc.ne', mul_div_mul_left]

section Scaled

variable {c : Rat} (hc : 0 < c) (x y : Rat)
include hc

theorem fabs_mul_left : fabs (c * x) = c * fabs x := by rw [fabs_eq_abs, fabs_eq_abs, abs_mul, abs_of_pos hc]

theorem octantRatio_mul_left : octantRatio (c * x) (c * y) = octantRatio x y := by
  have hmin := mul_min_of_nonneg (fabs x) (fabs y) hc.le
  have hmax := mul_max_of_nonneg (fabs x) (fabs y) hc.le
  rw [octantRatio, fmin_eq_min, fmax_eq_max, fabs_mul_left hc, fabs_mul_left hc, ← hmin, ← hmax, ratio_mul_left hc, octantRatio,
    fmin_eq_min, fmax_eq_max]

/-- R140 (c), for arguments that are not rounded: the ratio and the three comparisons do not see a common positive factor. -/
theorem atan2a_mul_left : atan2a (c * x) (c * y) = atan2a x y := by
  have hangle : octantAngle (c * x) (c * y) = octantAngle x y := by
    simp only [octantAngle, octantRatio_mul_left hc, octant, fabs_mul_left hc, gt_iff_lt, mul_lt_mul_iff_right₀ hc]
  have hsign (a : Rat) : c * a < 0 ↔ a < 0 := by rw [← mul_lt_mul_iff_right₀ (b := a) hc, mul_zero]
  simp only [atan2a_eq, hangle, quadrant, signCorrect, hsign]

end Scaled

/-- Settles O34: off the axis by `atan2a_neg_right` and `atan2a_neg_left`; on it the angle is 0 or `PI32`, which is no negative
of itself. -/
theorem arctangentSymmetries : Obligations.ArctangentSymmetries := by
  refine ⟨fun x y => atan2a_neg_right x, fun x hx => ?_, fun x hx => ?_, fun x y hx => atan2a_neg_left hx y,
    fun c x y hc => atan2a_mul_left hc x y⟩
  · rw [atan2a_zero_right_of_nonneg hx, neg_zero]
  · rw [atan2a_zero_right_of_neg hx, pi32_eq]
    norm_num

/-! ### Truncation and wrap (R151 to R153, R157) -/

/-- The extreme of R151, evaluated, and that it is below the bound of R13. -/
theorem gain_extreme :
    gain (f32 0x41C90FDA#32) (scale 65535#16) = f32 0x48FFFEFE#32 ∧ f32 0x48FFFEFE#32 < 524280 := by decide +kernel

theorem abs_gain_le_extreme {acc : Rat} (hacc : |acc| ≤ f32 0x41C90FDA#32) (f : BitVec 16) :
    |gain acc (scale f)| ≤ f32 0x48FFFEFE#32 := by
  have hlt := f.isLt
  rw [← gain_extreme.1]
  exact abs_gain_scale_le hacc (show f.toNat ≤ 65535 by omega)

theorem f2iTrunc_of_nonneg {v : Rat} (h : 0 ≤ v) : f2iTrunc v = ⌊v⌋ := if_pos h
theorem f2iTrunc_of_neg {v : Rat} (h : v < 0) : f2iTrunc v = ⌈v⌉ := if_neg (not_le.mpr h)

/-- Settles O40: the bounds by `gain_extreme`; truncation is the floor from 0 on and the ceiling below. -/
theorem truncationIsTowardZero : Obligations.TruncationIsTowardZero := by
  intro acc volf hacc v
  have hv : |v| ≤ f32 0x48FFFEFE#32 := abs_gain_le_extreme hacc volf
  have hlt : |v| < (524280 : Int) := hv.trans_lt (by exact_mod_cast gain_extreme.2)
  refine ⟨hv, Int.lt_add_one_iff.mp (abs_f2iTrunc_lt hlt), fun h => ?_, fun h => ?_⟩
  · rw [f2iTrunc_of_nonneg h]
    exact ⟨Int.floor_le v, Int.lt_floor_add_one v⟩
  · rw [f2iTrunc_of_neg h]
    exact ⟨Int.le_ceil v, Int.ceil_lt_add_one v⟩

theorem wrap16_toNat (n : Int) : ((wrap16 n).toNat : Int) = n % 65536 := by
  rw [wrap16, BitVec.toNat_ofInt]
  omega

/-- Settles O42: the signed value differs from the unsigned one (`wrap16_toNat`) by 0 or 65536. -/
theorem wrapIsModulo : Obligations.WrapIsModulo := by
  intro n
  have hnat := wrap16_toNat n
  have hsigned := BitVec.toInt_eq_toNat_cond (wrap16 n)
  have hdvd : (65536 : Int) ∣ n - (wrap16 n).toInt := by split_ifs at hsigned <;> omega
  obtain ⟨z, hz⟩ := hdvd
  refine ⟨?_, ⟨z, by omega⟩, hnat⟩
  split_ifs at hsigned <;> omega

/-- Rounding twice the value down gives twice the rounded value, or one more. -/
theorem floor_two_mul (v : Rat) : ⌊2 * v⌋ = 2 * ⌊v⌋ ∨ ⌊2 * v⌋ = 2 * ⌊v⌋ + 1 := by
  have hlow : 2 * ⌊v⌋ ≤ ⌊2 * v⌋ := Int.le_floor.mpr (by push_cast; linarith [Int.floor_le v])
  have hhigh : ⌊2 * v⌋ < 2 * ⌊v⌋ + 2 := Int.floor_lt.mpr (by push_cast; linarith [Int.lt_floor_add_one v])
  omega

theorem f2iTrunc_two_mul_of_pos {v : Rat} (h : 0 < v) :
    f2iTrunc (2 * v) = 2 * f2iTrunc v ∨ f2iTrunc (2 * v) = 2 * f2iTrunc v + 1 := by
  rw [f2iTrunc_of_nonneg h.le, f2iTrunc_of_nonneg (by linarith)]
  exact floor_two_mul v

theorem f2iTrunc_two_mul (v : Rat) :
    f2iTrunc (2 * v) = 2 * f2iTrunc v ∨ f2iTrunc (2 * v) = 2 * f2iTrunc v + SignType.sign v := by
  rcases lt_trichotomy v 0 with hneg | rfl | hpos
  · have hmirror := f2iTrunc_two_mul_of_pos (neg_pos.mpr hneg)
    rw [mul_neg, f2iTrunc_neg, f2iTrunc_neg] at hmirror
    rw [sign_neg hneg, SignType.coe_neg_one]
    omega
  · simp [f2iTrunc]
  · rw [sign_pos hpos]
    exact f2iTrunc_two_mul_of_pos hpos

/-! ### The scale and the scaled value (R150, R151) -/

/-- The ends of R150's range, evaluated. -/
theorem scale_extremes : 318 / 1000 ≤ scale 1#16 ∧ scale 65535#16 ≤ 208604375 / 10000 := by decide +kernel

theorem scale_range (f : BitVec 16) : scale f = 0 ∨ (318 / 1000 ≤ scale f ∧ scale f ≤ 208604375 / 10000) := by
  have hlt := f.isLt
  rcases f.toNat.eq_zero_or_pos with hzero | hpos
  · obtain ⟨hscale, -⟩ := scale_listed_values
    exact .inl (by rw [show f = 0#16 from BitVec.eq_of_toNat_eq hzero, hscale])
  · exact .inr ⟨scale_extremes.1.trans (scale_mono (show (1#16).toNat ≤ f.toNat from hpos)),
      (scale_mono (show f.toNat ≤ (65535#16).toNat from Nat.le_of_lt_succ hlt)).trans scale_extremes.2⟩

/-- The exact product of a sum of angles and a scale is 0 or far from the subnormals. -/
theorem mul_scale_normal {acc : Rat} (hacc : acc = 0 ∨ 1 / 2 ^ 45 ≤ |acc|) (f : BitVec 16) :
    acc * scale f = 0 ∨ 1 / 2 ^ 47 ≤ |acc * scale f| := by
  obtain rfl | hacc := hacc
  · exact .inl (zero_mul _)
  obtain hscale | ⟨hscale, -⟩ := scale_range f
  · exact .inl (by rw [hscale, mul_zero])
  · refine .inr ?_
    rw [abs_mul, abs_of_nonneg (scale_nonneg f)]
    calc (1 : Rat) / 2 ^ 47 ≤ 1 / 2 ^ 45 * (318 / 1000) := by norm_num
      _ ≤ |acc| * scale f := by gcongr

/-- Settles O43: both roundings are of values that are 0 or not subnormal, so that the factor 2 passes through them. -/
theorem doublingTheFactor : Obligations.DoublingTheFactor := by
  intro acc f g hfg hacc v
  have hscale : scale g = 2 * scale f := by simpa using scale_of_two_pow_mul (n := 1) (by simpa using hfg)
  have hnormal : acc * scale f = 0 ∨ (2 : Rat) ^ (-126 : Int) ≤ |acc * scale f| :=
    (mul_scale_normal hacc f).imp_right (le_trans (by norm_num))
  refine ⟨hscale, ?_, f2iTrunc_two_mul v⟩
  have hround := rn32_two_pow_mul hnormal 1
  rw [pow_one] at hround
  rw [gain, fmul, hscale, mul_left_comm]
  exact hround

/-! ### The range of one transition (R13, R130) -/

/-- A power of two in F32 below a magnitude stays below the rounded magnitude. -/
theorem le_abs_rn32 {q : Rat} {n : Nat} (hn : n ≤ 149) (h : 1 / 2 ^ n ≤ |q|) : 1 / 2 ^ n ≤ |rn32 q| := by
  have hgrid : rn32 (1 / 2 ^ n) = 1 / 2 ^ n := by
    simpa using rn32_two_zpow (e := -(n : Int)) (by omega)
  rcases le_total 0 q with hq | hq
  · rw [abs_of_nonneg hq] at h
    exact (le_rn32_of_le hgrid h).trans (le_abs_self _)
  · rw [abs_of_nonpos hq] at h
    rw [← abs_neg, ← rn32_neg]
    exact (le_rn32_of_le hgrid h).trans (le_abs_self _)

theorem zero_or_one_le_abs_intCast (n : Int) : (n : Rat) = 0 ∨ 1 ≤ |(n : Rat)| := by
  rcases eq_or_ne n 0 with rfl | hn
  · exact .inl Int.cast_zero
  · exact .inr (by exact_mod_cast Int.one_le_abs hn)

section Integers

variable {x y : Int} (hx : |x| ≤ 2 ^ 21) (hy : |y| ≤ 2 ^ 21)
include hx hy

/-- R132: on the axes the ratio is 0. -/
theorem octantRatio_zero_or_ge : octantRatio (x : Rat) y = 0 ∨ 1 / 2 ^ 21 ≤ octantRatio (x : Rat) y := by
  rcases eq_or_ne x 0 with rfl | hx0
  · exact .inl (by simp [octantRatio, fmin_eq_min, fabs, ratio_zero_left])
  rcases eq_or_ne y 0 with rfl | hy0
  · exact .inl (by simp [octantRatio, fmin_eq_min, fabs, ratio_zero_left])
  · exact .inr (octantRatio_ge_of_int hx0 hy0 hx hy)

theorem octantAngle_zero_or_ge : octantAngle (x : Rat) y = 0 ∨ 1 / 2 ^ 22 ≤ octantAngle (x : Rat) y := by
  rcases eq_or_ne y 0 with rfl | hy0
  · exact .inl (by rw [Int.cast_zero, octantAngle_zero_right])
  refine .inr ?_
  rcases eq_or_ne x 0 with rfl | hx0
  · rw [Int.cast_zero, octantAngle_zero_left (Int.cast_ne_zero.mpr hy0), halfPi32_eq]
    norm_num
  · exact le_trans (by norm_num) (octantAngle_ge_of_int hx0 hy0 hx hy)

theorem quadrant_octantAngle_zero_or_ge :
    quadrant x (octantAngle (x : Rat) y) = 0 ∨ 1 / 2 ^ 22 ≤ quadrant x (octantAngle (x : Rat) y) := by
  rcases lt_or_ge (x : Rat) 0 with hneg | hnonneg
  · rw [quadrant_of_neg hneg]
    refine .inr (le_trans ?_ (le_rn32_of_le rn32_halfPi32 ?_))
    · rw [halfPi32_eq]; norm_num
    · have hle := octantAngle_le_halfPi32 x y
      rw [halfPi32_eq_half] at hle ⊢
      linarith
  · rw [quadrant_of_nonneg hnonneg]
    exact octantAngle_zero_or_ge hx hy

end Integers

theorem abs_atan2a (x y : Rat) : |atan2a x y| = quadrant x (octantAngle x y) := by
  have hnonneg : 0 ≤ quadrant x (octantAngle x y) := (quadrant_range x y).1
  rw [atan2a_eq]
  rcases lt_or_ge y 0 with hy | hy
  · rw [signCorrect_of_neg hy, abs_neg, abs_of_nonneg hnonneg]
  · rw [signCorrect_of_nonneg hy, abs_of_nonneg hnonneg]

/-- The coefficients between the bounds of R13. -/
theorem poly_constants_range :
    11 / 100 < polyC1 + polyC2 ∧ polyC1 < 16 / 100 ∧ -33 / 100 < polyC0 ∧ polyC0 + polyC1 < -16 / 100 := by
  rw [polyC0_eq, polyC1_eq, polyC2_eq]
  norm_num

/-- R134, R13: the chain of the polynomial for a ratio that is 0 or at least 2^-21. -/
theorem poly_chain_normal {r : Rat} (h0 : r = 0 ∨ 1 / 2 ^ 21 ≤ r) (h1 : r ≤ 1) :
    let s := fmul r r
    let q1 := fma polyC2 s polyC1
    let q2 := fma q1 s polyC0
    let u := fmul q2 s
    ((s = 0 ∨ 1 / 2 ^ 42 ≤ s) ∧ s ≤ 1) ∧
    (11 / 100 < q1 ∧ q1 < 16 / 100) ∧
    (-33 / 100 < q2 ∧ q2 < -16 / 100) ∧
    ((u = 0 ∨ u ≤ -1 / 2 ^ 45) ∧ -33 / 100 < u) := by
  intro s q1 q2 u
  have hr : 0 ≤ r := h0.elim ge_of_eq (le_trans (by norm_num))
  obtain ⟨⟨hs0, hs1⟩, ⟨hq1low, hq1high⟩, ⟨hq2low, hq2high⟩, hulow, -⟩ := poly_chain_range hr h1
  obtain ⟨hC12, hC1, hC0, hC01⟩ := poly_constants_range
  have hs : s = 0 ∨ 1 / 2 ^ 42 ≤ s := by
    obtain rfl | hr' := h0
    · exact .inl (by simp [s, fmul])
    · have hsquare : 1 / 2 ^ 42 ≤ |r * r| := by
        rw [abs_of_nonneg (mul_nonneg hr hr)]
        calc (1 : Rat) / 2 ^ 42 = 1 / 2 ^ 21 * (1 / 2 ^ 21) := by norm_num
          _ ≤ r * r := by gcongr
      have hround : 1 / 2 ^ 42 ≤ |fmul r r| := le_abs_rn32 (by norm_num) hsquare
      rw [abs_of_nonneg hs0] at hround
      exact .inr hround
  have hu : u = 0 ∨ u ≤ -1 / 2 ^ 45 := by
    obtain hs | hs := hs
    · exact .inl (by simp [u, hs, fmul])
    · have hgrid : rn32 (-1 / 2 ^ 45) = -1 / 2 ^ 45 := by
        rw [neg_div, rn32_neg]
        simpa using rn32_two_zpow (e := -45) (by norm_num)
      refine .inr (rn32_le_of_le hgrid ?_)
      calc q2 * s ≤ -(1 / 8) * s := mul_le_mul_of_nonneg_right (hq2high.trans (by linarith)) hs0
        _ ≤ -1 / 2 ^ 45 := by linarith
  exact ⟨⟨hs, hs1⟩, ⟨hC12.trans_le hq1low, hq1high.trans_lt hC1⟩, ⟨hC0.trans_le hq2low, hq2high.trans_lt hC01⟩, hu,
    hC0.trans_le hulow⟩

section Transition

variable {old new : Decimated} (ho : old.InRange) (hn : new.InRange)
include ho hn

theorem angle_eq_atan2a : angle old new = atan2a (discX old new) (discY old new) := by
  rw [angle, i2f_discX ho hn, i2f_discY ho hn]

theorem angle_zero_or_ge : angle old new = 0 ∨ 1 / 2 ^ 22 ≤ |angle old new| := by
  rw [angle_eq_atan2a ho hn, ← abs_eq_zero, abs_atan2a]
  exact quadrant_octantAngle_zero_or_ge (abs_discX_le ho hn) (abs_discY_le ho hn)

end Transition

theorem abs_angle_le (old new : Decimated) : |angle old new| ≤ pi32 := abs_atan2a_le _ _

/-! ### The running sums (R13, R114) -/

/-- Each of the corrections returns a value of the grid. -/
theorem rn32_atan2a (x y : Rat) : rn32 (atan2a x y) = atan2a x y := by
  have hoctant : rn32 (octantAngle x y) = octantAngle x y := by
    unfold octantAngle octant fsub
    split_ifs
    · exact rn32_idem _
    · exact rn32_idem _
  have hquadrant : rn32 (quadrant x (octantAngle x y)) = quadrant x (octantAngle x y) := by
    unfold quadrant fsub
    split_ifs
    · exact rn32_idem _
    · exact hoctant
  rw [atan2a_eq]
  unfold signCorrect fneg
  split_ifs
  · rw [rn32_neg, hquadrant]
  · exact hquadrant

/-- The value is a multiple of 2^-45, the unit in the last place of the least angle. -/
def IsSumUnit (q : Rat) : Prop := ∃ z : Int, q = z / 2 ^ 45

theorem isSumUnit_iff {q : Rat} : IsSumUnit q ↔ ∃ z : Int, q = (z : Rat) * (2 : Rat) ^ (-45 : Int) := by
  have hunit : (2 : Rat) ^ (-45 : Int) = 1 / 2 ^ 45 := by norm_num
  simp only [IsSumUnit, hunit, mul_one_div]

theorem IsSumUnit.zero_or_ge {q : Rat} (h : IsSumUnit q) : q = 0 ∨ 1 / 2 ^ 45 ≤ |q| := by
  obtain ⟨z, rfl⟩ := h
  refine (zero_or_one_le_abs_intCast z).imp (fun hz => by rw [hz, zero_div]) fun hz => ?_
  rw [abs_div, abs_of_pos (by positivity : (0 : Rat) < 2 ^ 45)]
  gcongr

theorem isSumUnit_angle {old new : Decimated} (ho : old.InRange) (hn : new.InRange) : IsSumUnit (angle old new) := by
  obtain hzero | hge := angle_zero_or_ge ho hn
  · exact ⟨0, by rw [hzero]; simp⟩
  · exact isSumUnit_iff.mpr (rounded_multiple (rn32_atan2a _ _) (le_of_eq_of_le (by norm_num) hge))

theorem isSumUnit_dec2Add {acc ang : Rat} (hacc : IsSumUnit acc) (hang : IsSumUnit ang) : IsSumUnit (dec2Add acc ang) := by
  obtain ⟨y, rfl⟩ := isSumUnit_iff.mp hacc
  obtain ⟨z, rfl⟩ := isSumUnit_iff.mp hang
  rw [isSumUnit_iff, dec2Add, fadd, ← add_mul, ← Int.cast_add]
  exact rn32_multiple (by norm_num) (y + z)

/-- R114: the running sum of `n` angles of `PI32`. -/
def piSum (n : Nat) : Rat := forTo n (fun _ acc => dec2Add acc pi32) 0

theorem rn32_piSum (n : Nat) : rn32 (piSum n) = piSum n := by
  cases n with
  | zero => exact rn32_zero
  | succ n => exact rn32_idem _

theorem piSum_mono : Monotone piSum := by
  refine monotone_nat_of_le_succ fun n => le_rn32_of_le (rn32_piSum n) ?_
  have hpi : 0 < pi32 := by rw [pi32_eq]; norm_num
  exact le_add_of_nonneg_right hpi.le

/-- R115: eight additions of `PI32`, evaluated, stay below the exact sum. -/
theorem piSum_eight : f32 0x41C90FDA#32 ≤ 8 * pi32 := by decide +kernel

theorem isSumUnit_runningSum {olds news : Nat → Decimated} (h : ∀ t, (olds t).InRange ∧ (news t).InRange) (n : Nat) :
    IsSumUnit (forTo n (fun t acc => dec2Add acc (angle (olds t) (news t))) 0) :=
  forTo_induct n ⟨0, by simp⟩ fun t _ _ hacc => isSumUnit_dec2Add hacc (isSumUnit_angle (h t).1 (h t).2)

theorem abs_runningSum_angle_le (olds news : Nat → Decimated) {n : Nat} (hn : n ≤ 8) :
    |forTo n (fun t acc => dec2Add acc (angle (olds t) (news t))) 0| ≤ f32 0x41C90FDA#32 :=
  (abs_runningSum_le n fun t _ => abs_angle_le (olds t) (news t)).trans ((piSum_mono hn).trans_eq dec2_pi32)

/-- Settles O31: one transition by `poly_chain_normal` and the bounds of its corrections, the scale by `scale_range`, the running
sums by `IsSumUnit` and `piSum`. -/
theorem datapathStaysNormal : Obligations.DatapathStaysNormal := by
  refine ⟨fun old new ho hn => ?_, scale_range, fun olds news hrange n hn8 => ?_⟩
  · have hangle := angle_zero_or_ge ho hn
    have hx := abs_discX_le ho hn
    have hy := abs_discY_le ho hn
    rw [i2f_discX ho hn, i2f_discY ho hn]
    have hr0 := octantRatio_zero_or_ge hx hy
    obtain ⟨hr, hr1⟩ := octantRatio_range (discX old new) (discY old new)
    obtain ⟨hs, hq1, hq2, hu⟩ := poly_chain_normal hr0 hr1
    have hround : rn32 (octantRatio (discX old new) (discY old new)) = octantRatio (discX old new) (discY old new) :=
      rn32_ratio _ _
    exact ⟨⟨zero_or_one_le_abs_intCast _, by exact_mod_cast hx⟩, ⟨zero_or_one_le_abs_intCast _, by exact_mod_cast hy⟩,
      ⟨hr0, hr1⟩, hs, hq1, hq2, hu, ⟨atanPoly_ge_of_rn32_eq hround hr hr1, (atanPoly_range hround hr hr1).2⟩,
      ⟨octantAngle_zero_or_ge hx hy, octantAngle_le_halfPi32 _ _⟩,
      ⟨quadrant_octantAngle_zero_or_ge hx hy, (quadrant_range _ _).2⟩, hangle, abs_angle_le old new⟩
  · have hunit := isSumUnit_runningSum hrange n
    have hle := abs_runningSum_angle_le olds news hn8
    refine ⟨hunit, hunit.zero_or_ge, ⟨hle, hle.trans piSum_eight⟩, fun volf => ⟨?_, ?_⟩⟩
    · obtain hzero | hge := mul_scale_normal hunit.zero_or_ge volf
      · exact .inl (by rw [gain, fmul, hzero, rn32_zero])
      · exact .inr (le_abs_rn32 (by norm_num) hge)
    · exact (abs_gain_le_extreme hle volf).trans gain_extreme.2.le

end Sys2Proof.Machine
end
